-- ==== Sys2Proof/Word.lean ====
section
/-! DEFINITION. The two word types of the engine: the lane and the byte (rule R9). -/

namespace Sys2Proof

/-- A lane: a 32-bit unsigned word, "the smallest addressable unit of state" (R9, glossary of 00_scope). -/
abbrev Lane := BitVec 32

/-- A byte of the input or of the output buffer (R9). Byte `j` of a lane is its bits `8j+7 .. 8j`. -/
abbrev Byte := BitVec 8

end Sys2Proof
end

