-- ==== Sys2Proof/Syntax.lean ====
section
/-! DEFINITION. The command as the host presents it at the port (rule R45) and the one instruction type: one
constructor per row of the opcode map (rules R46, R54). -/

namespace Sys2Proof

/-- The input buffer of a command (R31): the 384 data bits `din` (byte `k` at bits `8k+7 .. 8k`) and the 6-bit
number `dinLen` of bytes supplied. -/
structure InBuf where
  din : BitVec 384
  dinLen : BitVec 6
deriving DecidableEq, Repr

/-- The empty buffer: `din_len = 0`. -/
def InBuf.empty : InBuf := { din := 0, dinLen := 0 }

/-- A command: the triple (`cmd[15:0]`, `din[383:0]`, `din_len[5:0]`) of R45. -/
structure Command where
  cmd : BitVec 16
  buf : InBuf
deriving DecidableEq, Repr

/-- The 13 commands (R46). A command carries the operand fields the opcode map marks for it, at their encoded
widths, and the four data-taking commands carry the input buffer. Out-of-range operands are expressible: they
decode and then fault (R50, R51, R52). -/
inductive Instr where
  /-- R91: construct a zero Full state. -/
  | fNew (lpp : BitVec 3) (nr : BitVec 4)
  /-- R92: construct a Full state from bytes. -/
  | fLoad (lpp : BitVec 3) (nr : BitVec 4) (buf : InBuf)
  /-- R93: XOR a byte buffer into the Full state. -/
  | fAbsorb (buf : InBuf)
  /-- R94: one Full round with an explicit index. -/
  | fRound (i : BitVec 4)
  /-- R95: the last `F.NR` rounds of the schedule. -/
  | fPermute
  /-- R96: serialise the Full state. -/
  | fDigest
  /-- R97: serialise one plane. -/
  | fGetplane (p : BitVec 4)
  /-- R100: construct a zero NC state. -/
  | nInit
  /-- R101: construct an NC state from bytes. -/
  | nLoad (buf : InBuf)
  /-- R102: XOR a byte buffer into the NC words. -/
  | nAbsorb (buf : InBuf)
  /-- R103: one NC round with an explicit index. -/
  | nRound (i : BitVec 4)
  /-- R104: NC rounds 0, 1, 2. -/
  | nPermute
  /-- R105: serialise the NC words. -/
  | nDigest
deriving DecidableEq, Repr

end Sys2Proof
end

