-- ==== Sys2Proof/Decode.lean ====
section
/-! DEFINITION. The decoder of the command word (rules R47 to R54), total over all 65536 words, and the encoder
written from the same format table. -/

namespace Sys2Proof

/-! ### The fields of the one format `C16` (R47) -/

/-- `OP = cmd[15:12]` (R48). -/
def opField (c : BitVec 16) : BitVec 4 := c.extractLsb' 12 4

/-- `V = cmd[11]`: 0 for context F, 1 for context N (R49). -/
def vField (c : BitVec 16) : BitVec 1 := c.extractLsb' 11 1

/-- `LPP = cmd[10:8]` (R50). -/
def lppField (c : BitVec 16) : BitVec 3 := c.extractLsb' 8 3

/-- `NR = cmd[7:4]` (R51). -/
def nrField (c : BitVec 16) : BitVec 4 := c.extractLsb' 4 4

/-- `IDX = cmd[3:0]` (R52). -/
def idxField (c : BitVec 16) : BitVec 4 := c.extractLsb' 0 4

/-- The word with the five given fields, `OP` in the high bits (R47). -/
def assemble (op : BitVec 4) (v : BitVec 1) (lpp : BitVec 3) (nr idx : BitVec 4) : BitVec 16 :=
  op ++ v ++ lpp ++ nr ++ idx

/-! ### The opcode map (R54) -/

/-- The name of a row of the opcode map. -/
inductive Mnemonic where
  | fNew | fLoad | fAbsorb | fRound | fPermute | fDigest | fGetplane
  | nInit | nLoad | nAbsorb | nRound | nPermute | nDigest
deriving DecidableEq, Repr

/-- One row of the opcode map: the word `c` belongs to it when `c & mask = bits` (R54). -/
structure OpRow where
  name : Mnemonic
  bits : BitVec 16
  mask : BitVec 16
deriving DecidableEq, Repr

/-- The opcode map, row for row as R54 lists it. -/
def opcodeMap : List OpRow :=
  [ ⟨.fNew, 0x1000, 0xF80F⟩,
    ⟨.fLoad, 0x2000, 0xF80F⟩,
    ⟨.fAbsorb, 0x3000, 0xFFFF⟩,
    ⟨.fRound, 0x4000, 0xFFF0⟩,
    ⟨.fPermute, 0x5000, 0xFFFF⟩,
    ⟨.fDigest, 0x6000, 0xFFFF⟩,
    ⟨.fGetplane, 0x7000, 0xFFF0⟩,
    ⟨.nInit, 0x1800, 0xFFFF⟩,
    ⟨.nLoad, 0x2800, 0xFFFF⟩,
    ⟨.nAbsorb, 0x3800, 0xFFFF⟩,
    ⟨.nRound, 0x4800, 0xFFF0⟩,
    ⟨.nPermute, 0x5800, 0xFFFF⟩,
    ⟨.nDigest, 0x6800, 0xFFFF⟩ ]

/-- The word matches the row. -/
def rowMatches (c : BitVec 16) (r : OpRow) : Bool := c &&& r.mask == r.bits

/-- The first row the word matches, by name (R54). -/
def selectRow (c : BitVec 16) : Option Mnemonic :=
  (opcodeMap.find? (rowMatches c)).map OpRow.name

/-- The instruction of a row, its operands taken from the command (R50 to R52, R31). -/
def buildInstr (m : Mnemonic) (c : Command) : Instr :=
  match m with
  | .fNew => .fNew (lppField c.cmd) (nrField c.cmd)
  | .fLoad => .fLoad (lppField c.cmd) (nrField c.cmd) c.buf
  | .fAbsorb => .fAbsorb c.buf
  | .fRound => .fRound (idxField c.cmd)
  | .fPermute => .fPermute
  | .fDigest => .fDigest
  | .fGetplane => .fGetplane (idxField c.cmd)
  | .nInit => .nInit
  | .nLoad => .nLoad c.buf
  | .nAbsorb => .nAbsorb c.buf
  | .nRound => .nRound (idxField c.cmd)
  | .nPermute => .nPermute
  | .nDigest => .nDigest

/-- Why a word is illegal: the three kinds R54 lists. All of them raise the same fault, `ILLEGAL_CMD`. -/
inductive Illegal where
  /-- `OP` is 0 or 8 to 15 (R48). -/
  | noSuchOp
  /-- `OP = 7` with `V = 1`: get-plane "is not supported in this variant" (R106). -/
  | ncGetPlane
  /-- A legal `OP`, `V` pair with a non-zero reserved field (R53). -/
  | reservedField
deriving DecidableEq, Repr

/-- The kind of an illegal word. -/
def illegalReason (c : BitVec 16) : Illegal :=
  if (opField c).toNat = 0 ∨ 8 ≤ (opField c).toNat then .noSuchOp
  else if (opField c).toNat = 7 ∧ vField c = 1 then .ncGetPlane
  else .reservedField

/-- The decoder (R54): one of the 13 commands, or illegal with the reason. It reads no state (R45). -/
def decode (c : Command) : Except Illegal Instr :=
  match selectRow c.cmd with
  | some m => .ok (buildInstr m c)
  | none => .error (illegalReason c.cmd)

/-! ### The encoder -/

/-- The command word of an instruction: the fields it does not use are 0 (R53). -/
def encodeWord : Instr → BitVec 16
  | .fNew lpp nr => assemble 1 0 lpp nr 0
  | .fLoad lpp nr _ => assemble 2 0 lpp nr 0
  | .fAbsorb _ => assemble 3 0 0 0 0
  | .fRound i => assemble 4 0 0 0 i
  | .fPermute => assemble 5 0 0 0 0
  | .fDigest => assemble 6 0 0 0 0
  | .fGetplane p => assemble 7 0 0 0 p
  | .nInit => assemble 1 1 0 0 0
  | .nLoad _ => assemble 2 1 0 0 0
  | .nAbsorb _ => assemble 3 1 0 0 0
  | .nRound i => assemble 4 1 0 0 i
  | .nPermute => assemble 5 1 0 0 0
  | .nDigest => assemble 6 1 0 0 0

/-- The buffer that goes with the instruction's word: its own if it takes data, else the empty one, which the
engine ignores (R31). -/
def encodeBuf : Instr → InBuf
  | .fLoad _ _ buf => buf
  | .fAbsorb buf => buf
  | .nLoad buf => buf
  | .nAbsorb buf => buf
  | .fNew _ _ => InBuf.empty
  | .fRound _ => InBuf.empty
  | .fPermute => InBuf.empty
  | .fDigest => InBuf.empty
  | .fGetplane _ => InBuf.empty
  | .nInit => InBuf.empty
  | .nRound _ => InBuf.empty
  | .nPermute => InBuf.empty
  | .nDigest => InBuf.empty

/-- The command the host presents to run the instruction (R45). -/
def encode (i : Instr) : Command := { cmd := encodeWord i, buf := encodeBuf i }

/-! ### A word as the opcode table numbers it -/

/-- The command whose word is the `nbits` low bits of `w` and whose buffer is empty. A value that needs more than
the 16 bits of the one format is no command word (R45). -/
def tableCommand (nbits w : Nat) : Option Command :=
  if w % 2 ^ nbits < 2 ^ 16 then some { cmd := BitVec.ofNat 16 (w % 2 ^ nbits), buf := InBuf.empty } else none

/-- The instruction the decoder reads from a word of spec/opcode_table.json; none where it is illegal. -/
def decodeTableWord (nbits w : Nat) : Option Instr :=
  match tableCommand nbits w with
  | none => none
  | some c =>
    match decode c with
    | .ok i => some i
    | .error _ => none

end Sys2Proof
end

