-- ==== Sys2Proof/Machine/State.lean ====
section
/-! DEFINITION. The state of the machine is `Block`: the tuple `F`, `N`, `CTL` of rule R11, with no input and no output
in it (R21). What the block does in one step is a function of a `Block` and of what the host drives, and answers the
next `Block` and a response. `State` closes the block with the other agent of R11, the host, for an interface whose step
takes one value and answers one. -/

namespace Sys2Proof.Machine

open Sys2Proof

/-- A plane of `n` lanes: the length is part of the type, as R73 asks. -/
abbrev Plane (n : Nat) := Vector Lane n

/-- The three planes `A[0]`, `A[1]`, `A[2]` of one state, all of the same length (R12). -/
structure Cube (n : Nat) where
  a0 : Plane n
  a1 : Plane n
  a2 : Plane n
deriving DecidableEq, Repr

/-- A constructed Full context (R12, R14): `F.LPP` (3 bits), `F.NR` (4 bits) and the lanes `A[y][x]` with
`x < F.LPP`. The lanes with `x >= F.LPP` do not exist and are not stored (R12, 93 U5). -/
structure FullCtx where
  lpp : BitVec 3
  nr : BitVec 4
  a : Cube lpp.toNat
deriving DecidableEq, Repr

/-- A constructed NC context: the word file `W[0..2]` (R13). -/
structure NcCtx where
  w0 : Lane
  w1 : Lane
  w2 : Lane
deriving DecidableEq, Repr

/-- The register `RV` (R18): the context the running rounds apply to. `F` is the bit 0, `N` the bit 1. -/
inductive Variant where
  | F
  | N
deriving DecidableEq, Repr

/-- The values of the 3-bit register `CAUSE` and of `rsp_cause`, by the names of R110. -/
inductive Cause where
  | none
  | illegalCmd
  | noContext
  | badLanes
  | badRounds
  | badRoundIndex
  | badPlaneIndex
  | oversize
deriving DecidableEq, Repr

/-- A response (R58): `rsp_fault`, `rsp_cause` and the bytes of `dout`, `dout_len` of them. -/
structure Response where
  fault : Bool
  cause : Cause
  dout : List Byte
deriving DecidableEq, Repr

/-- What the host drives during one step: nothing, a command at the port, or the reset input (R130, R141). -/
inductive HostMove where
  | idle
  | offer (c : Command)
  | reset
deriving DecidableEq, Repr

/-- The state of the block, and nothing else (R11, R21): the contexts `F` and `N` and the controller. `full` is
`none` exactly when `F.VALID = 0`, and `nc` when `N.VALID = 0`: then the context holds no value (R14, R15, R23;
DEDUCED, safe: notes/assumptions/1.md). -/
structure Block where
  /-- `F.VALID`, `F.LPP`, `F.NR`, `A[y][x]`. -/
  full : Option FullCtx
  /-- `N.VALID`, `W[y]`. -/
  nc : Option NcCtx
  /-- `BUSY` (R16). -/
  busy : Bool
  /-- `FAULT` (R16). -/
  fault : Bool
  /-- `CAUSE` (R16). -/
  cause : Cause
  /-- `RI`, the index of the round the next engine step executes (R17). -/
  ri : BitVec 4
  /-- `RE`, the end index, exclusive (R18). -/
  re : BitVec 4
  /-- `RV` (R18). -/
  rv : Variant
deriving DecidableEq, Repr

/-- What one step of the block answers: its next state, and the response it puts on its outputs in that step, if it
gives one (R21 (b), R58). The response is no part of the state. -/
structure BlockStep where
  block : Block
  rsp : Option Response
deriving DecidableEq, Repr

/-- The host, the other agent of R11: what it is still to drive, first move first, and the responses it has received,
oldest first (R141). Both are the MODEL's own, no state of the block (R21; DESIGN CHOICE, safe:
notes/assumptions/2.md). -/
structure HostAgent where
  moves : List HostMove
  rsps : List Response
deriving DecidableEq, Repr

/-- The system of the two agents of R11: the block, whose state is `Block`, and the host beside it. -/
structure State extends Block, HostAgent
deriving DecidableEq, Repr

/-- The block right after reset (R23). -/
def Block.reset : Block :=
  { full := none, nc := none, busy := false, fault := false, cause := .none, ri := 0, re := 0, rv := .F }

/-- The machine right after reset: the block as R23 says, and, chosen by the model, a host that drives nothing and no
response yet (DESIGN CHOICE, unsafe for these two lists only: notes/assumptions/10.md). -/
def State.reset : State := { toBlock := Block.reset, moves := [], rsps := [] }

/-- Why a step can stop. No state a run reaches from reset raises either (R19, R111): the faults of R110 are
states of the machine (`FAULT = 1`), not stops. -/
inductive Fault where
  /-- Raised by the engine step when `RI` is above 11: the ROM has no such entry (R20). Safe: the machine stops
  where the spec gives no value, and R19 (b) keeps every reachable state out of it. -/
  | romIndex
  /-- Raised by the engine step when the context `RV` selects is not constructed: it holds no lanes (R14, R15).
  Safe: the machine stops where the spec gives no value, and R19 (b) keeps every reachable state out of it. -/
  | engineNoContext
deriving DecidableEq, Repr

/-- Why an instruction has no meaning. -/
inductive Refusal where
  /-- Raised by an arm of `exec` whose instruction is not modelled, with its mnemonic. Safe: the machine stops. -/
  | notModelled (mnemonic : String)
deriving DecidableEq, Repr

/-- The outcome of a step of the block. -/
abbrev BlockResult := Host.Outcome BlockStep Fault Refusal

/-- The outcome of a step of the system. -/
abbrev Result := Host.Outcome State Fault Refusal

end Sys2Proof.Machine
end

