-- ==== Sys2Proof/Machine/Flags.lean ====
section
/-! DEFINITION. The flags: the validity flags, the precondition checks that decide them (rules R38, R50 to R52,
R110), the cause codes, and the levels on the output pins (R59), each read from the block alone. No arithmetic flag
exists (R16). -/

namespace Sys2Proof.Machine

open Sys2Proof

/-- `F.VALID` (R14). -/
def fValid (b : Block) : Bool := b.full.isSome

/-- `F.LPP`; it holds no value while `F.VALID = 0` (R14). -/
def fLpp (b : Block) : Option (BitVec 3) := b.full.map FullCtx.lpp

/-- `F.NR`; it holds no value while `F.VALID = 0` (R14). -/
def fNr (b : Block) : Option (BitVec 4) := b.full.map FullCtx.nr

/-- `N.VALID` (R15). -/
def nValid (b : Block) : Bool := b.nc.isSome

/-- The context a variant bit names is constructed (R19 (b)). -/
def contextValid (b : Block) (v : Variant) : Bool :=
  match v with
  | .F => fValid b
  | .N => nValid b

/-- The bit of `RV`: 0 for F, 1 for N (R18). -/
def variantBit (v : Variant) : BitVec 1 :=
  match v with
  | .F => 0
  | .N => 1

/-- The 3-bit code of a cause (R110). -/
def causeCode (c : Cause) : BitVec 3 :=
  match c with
  | .none => 0
  | .illegalCmd => 1
  | .noContext => 2
  | .badLanes => 3
  | .badRounds => 4
  | .badRoundIndex => 5
  | .badPlaneIndex => 6
  | .oversize => 7

/-- A host step is enabled exactly when `BUSY = 0` and `FAULT = 0` (R90). -/
def hostStepEnabled (b : Block) : Bool := !b.busy && !b.fault

/-- `LPP` is in 1..4; else `BAD_LANES` (R50, R110). -/
abbrev LegalLanes (lpp : BitVec 3) : Prop := 1 ≤ lpp.toNat ∧ lpp.toNat ≤ 4

/-- `NR` is in 0..12; else `BAD_ROUNDS` (R51, R110). -/
abbrev LegalRounds (nr : BitVec 4) : Prop := nr.toNat ≤ 12

/-- The round index is in 0..11; else `BAD_ROUND_INDEX` (R52, R110). -/
abbrev LegalRoundIndex (i : BitVec 4) : Prop := i.toNat ≤ 11

/-- The plane index is in 0..2; else `BAD_PLANE_INDEX` (R52, R110). -/
abbrev LegalPlaneIndex (p : BitVec 4) : Prop := p.toNat ≤ 2

/-- The buffer fits a state of `l` lanes per plane; else `OVERSIZE` (R38, R110). -/
abbrev Fits (buf : InBuf) (l : Nat) : Prop := buf.dinLen.toNat ≤ 12 * l

/-! ### The output pins (R59) -/

/-- The pin `cmd_ready` at a given level of `rst`: 0 while `rst = 1`, while `FAULT = 1` and until the response of
the accepted command has been given, which is while `BUSY = 1`. -/
def pinCmdReady (rst : Bool) (b : Block) : Bool := !rst && !b.fault && !b.busy

/-- The pin `busy`. -/
def pinBusy (b : Block) : Bool := b.busy

/-- The pin `fault`. -/
def pinFault (b : Block) : Bool := b.fault

/-- The pins `cause[2:0]`. -/
def pinCause (b : Block) : BitVec 3 := causeCode b.cause

end Sys2Proof.Machine
end

