-- ==== Sys2Proof/Machine/Planes.lean ====
section
/-! DEFINITION. The lane and plane primitives (rules R60 to R69): pure functions, the plane's length in its type. -/

namespace Sys2Proof.Machine

open Sys2Proof

/-- `rotl32(v, z)`: the bits of a lane rotated left by `z`, an integer reduced into 0..31 (R60). -/
def rotl32 (v : Lane) (z : Int) : Lane :=
  let r := (z % 32).toNat
  if r = 0 then v else v <<< r ||| v >>> (32 - r)

/-- `PlaneZero(n)`: all lanes zero (R61). -/
def planeZero (n : Nat) : Plane n := Vector.ofFn fun _ => 0

/-- `P ^ Q`, lane by lane (R62). -/
def planeXor {n : Nat} (p q : Plane n) : Plane n := Vector.ofFn fun i => p[i] ^^^ q[i]

/-- `P & Q`, lane by lane (R63). -/
def planeAnd {n : Nat} (p q : Plane n) : Plane n := Vector.ofFn fun i => p[i] &&& q[i]

/-- `~P`, lane by lane (R64). -/
def planeNot {n : Nat} (p : Plane n) : Plane n := Vector.ofFn fun i => ~~~p[i]

/-- `PlaneXorWord(P, k, v)`: lane `k` XORed with `v`, the others as they were (R65). -/
def planeXorWord {n : Nat} (p : Plane n) (k : Nat) (v : Lane) : Plane n :=
  Vector.ofFn fun i => if i.val = k then p[i] ^^^ v else p[i]

/-- The source lane position `emod(i - x, n)` of a lane rotation by `x` (R66). -/
def sourceLane {n : Nat} (i : Fin n) (x : Int) : Fin n :=
  ⟨(((i.val : Int) - x) % (n : Int)).toNat, by
    have hn : (0 : Int) < n := by have := i.isLt; omega
    have h0 := Int.emod_nonneg ((i.val : Int) - x) (by omega : (n : Int) ≠ 0)
    have h1 := Int.emod_lt_of_pos ((i.val : Int) - x) hn
    omega⟩

/-- `PlaneShift(P, x, z)`: lane positions rotated by `x`, the bits of every lane rotated left by `z` (R66). -/
def planeShift {n : Nat} (p : Plane n) (x z : Int) : Plane n :=
  Vector.ofFn fun i => rotl32 p[sourceLane i x] z

/-- Byte `j` of a lane, `v[8j+7:8j]` (R9). -/
def laneByte (v : Lane) (j : Nat) : Byte := v.extractLsb' (8 * j) 8

/-- The four bytes of a lane, low-order byte first (R33, R34). -/
def laneBytes (v : Lane) : List Byte := [laneByte v 0, laneByte v 1, laneByte v 2, laneByte v 3]

/-- The lane whose bytes 0 to 3 are given (R32, R34). -/
def laneOfBytes (b0 b1 b2 b3 : Byte) : Lane :=
  b0.setWidth 32 ||| b1.setWidth 32 <<< 8 ||| b2.setWidth 32 <<< 16 ||| b3.setWidth 32 <<< 24

/-- `byte(k)` of a byte list: the byte, and 0 past its end (R68). -/
def byteOrZero (b : List Byte) (k : Nat) : Byte := b.getD k 0

/-- `PlaneFromBytes(b, n)` (R68). -/
def planeFromBytes (b : List Byte) (n : Nat) : Plane n :=
  Vector.ofFn fun i =>
    laneOfBytes (byteOrZero b (4 * i)) (byteOrZero b (4 * i + 1)) (byteOrZero b (4 * i + 2)) (byteOrZero b (4 * i + 3))

/-- `PlaneSerialize(P)`: the lanes' bytes in lane order (R69). -/
def planeSerialize {n : Nat} (p : Plane n) : List Byte := p.toList.flatMap laneBytes

/-! ### The same over the three planes of a state -/

/-- The all-zero state of `n` lanes per plane. -/
def cubeZero (n : Nat) : Cube n := { a0 := planeZero n, a1 := planeZero n, a2 := planeZero n }

/-- Plane-by-plane XOR of two states of the same width (R93). -/
def cubeXor {n : Nat} (s t : Cube n) : Cube n :=
  { a0 := planeXor s.a0 t.a0, a1 := planeXor s.a1 t.a1, a2 := planeXor s.a2 t.a2 }

/-- Plane `y` of a state, `y` in 0..2 (R12). -/
def cubePlane {n : Nat} (s : Cube n) (y : Fin 3) : Plane n :=
  match y with
  | 0 => s.a0
  | 1 => s.a1
  | 2 => s.a2

/-- The lane `A[y][x]` of a Full context, `y` in 0..2; it exists for `x < F.LPP` only (R12). -/
def fullLane (c : FullCtx) (y : Fin 3) (x : Nat) : Option Lane := (cubePlane c.a y)[x]?

/-- The word `W[y]` of an NC context, `y` in 0..2 (R13). -/
def ncWord (w : NcCtx) (y : Fin 3) : Lane :=
  match y with
  | 0 => w.w0
  | 1 => w.w1
  | 2 => w.w2

/-- The three words as a state of one lane per plane, `A_y = [W[y]]` (R13, R81). -/
def ncCube (w : NcCtx) : Cube 1 := { a0 := #v[w.w0], a1 := #v[w.w1], a2 := #v[w.w2] }

end Sys2Proof.Machine
end

