-- ==== Sys2Proof/Machine/Operands.lean ====
section
/-! DEFINITION. The operand forms: the input buffer read little-endian, four bytes to a lane (rules R31, R32, R36,
R37), and the output buffer written the same way (R33). -/

namespace Sys2Proof.Machine

open Sys2Proof

/-- `DinByte(k)`: byte `k` of the input buffer, and `0x00` at and past `din_len` (R31). -/
def dinByte (buf : InBuf) (k : Nat) : Byte :=
  if k < buf.dinLen.toNat then buf.din.extractLsb' (8 * k) 8 else 0

/-- The byte sequence `d[0], ..., d[din_len-1]` of the buffer (R31). -/
def dinBytes (buf : InBuf) : List Byte := (List.range buf.dinLen.toNat).map (dinByte buf)

/-- `MemRead(k, 4)`, the only read of the input buffer (R32). -/
def memRead (buf : InBuf) (k : Nat) : Lane :=
  laneOfBytes (dinByte buf k) (dinByte buf (k + 1)) (dinByte buf (k + 2)) (dinByte buf (k + 3))

/-- The byte offset of lane `A[y][x]` in a full-state buffer of `l` lanes per plane: `4*(L*y + x)` (R36). -/
def laneOffset (l y x : Nat) : Nat := 4 * (l * y + x)

/-- Plane `y` of the transient state built from the buffer at width `n` (R92, R93). -/
def bufPlane (buf : InBuf) (n y : Nat) : Plane n := Vector.ofFn fun x => memRead buf (laneOffset n y x)

/-- The transient state built from the buffer at width `n` (R36, R92). -/
def bufCube (buf : InBuf) (n : Nat) : Cube n :=
  { a0 := bufPlane buf n 0, a1 := bufPlane buf n 1, a2 := bufPlane buf n 2 }

/-- The transient NC state built from the buffer: `W[y]` from offset `4y` (R37). -/
def bufWords (buf : InBuf) : NcCtx :=
  { w0 := memRead buf 0, w1 := memRead buf 4, w2 := memRead buf 8 }

/-- An output buffer of `len` bytes before anything is written to it. -/
def outZero (len : Nat) : List Byte := List.replicate len 0

/-- `MemWrite(k, 4, v)`, the only write of the output buffer: bytes `k .. k+3` become the lane's bytes (R33). -/
def memWrite (out : List Byte) (k : Nat) (v : Lane) : List Byte :=
  out.take k ++ laneBytes v ++ out.drop (k + 4)

/-- The lanes of a list written one after another from offset `k`. -/
def writeLanes (out : List Byte) (k : Nat) : List Lane → List Byte
  | [] => out
  | v :: vs => writeLanes (memWrite out k v) (k + 4) vs

/-- The output buffer of `F_DIGEST`: lane `A[y][x]` at `4*(L*y + x)`, `12*L` bytes (R96). -/
def digestBytes {n : Nat} (s : Cube n) : List Byte :=
  writeLanes (writeLanes (writeLanes (outZero (12 * n)) (laneOffset n 0 0) s.a0.toList)
    (laneOffset n 1 0) s.a1.toList) (laneOffset n 2 0) s.a2.toList

/-- The output buffer of `F_GETPLANE`: lane `A[p][x]` at `4*x`, `4*L` bytes (R97). -/
def planeBytes {n : Nat} (p : Plane n) : List Byte := writeLanes (outZero (4 * n)) 0 p.toList

/-- The output buffer of `N_DIGEST`: word `W[y]` at `4*y`, 12 bytes (R105). -/
def wordsBytes (w : NcCtx) : List Byte := writeLanes (outZero 12) 0 [w.w0, w.w1, w.w2]

/-- `dout_len` of a response: the number of bytes it carries (R33). -/
def doutLen (r : Response) : BitVec 6 := BitVec.ofNat 6 r.dout.length

/-- The level of output-port byte `k` while the response is driven: 0 at and past `dout_len` (R33). -/
def doutByte (r : Response) (k : Nat) : Byte := byteOrZero r.dout k

end Sys2Proof.Machine
end

