-- ==== Sys2Proof/Machine/Ops.lean ====
section
/-! DEFINITION. The named operations on the block that the meanings share: giving a response (R58), taking a fault
(R112), the reset move, which is the only way out of one (R114, R130), and starting rounds (R94, R95, R103, R104); and
how the system of the two agents runs a step of the block. -/

namespace Sys2Proof.Machine

open Sys2Proof

/-! ### Responses and faults -/

/-- The response of a command that succeeds (R58). -/
def okResponse (dout : List Byte) : Response := { fault := false, cause := .none, dout := dout }

/-- The response of a command that faults: `rsp_fault = 1`, the cause, no bytes (R58, R112). -/
def faultResponse (c : Cause) : Response := { fault := true, cause := c, dout := [] }

/-- Fault entry in the block: `FAULT` and `CAUSE`, nothing else (R112). -/
def setFault (c : Cause) (b : Block) : Block := { b with fault := true, cause := c }

/-- `raise Fault(c)` in a host step (R10, R112): fault entry, with the response. -/
def raiseFault (c : Cause) (b : Block) : BlockResult := .next { block := setFault c b, rsp := some (faultResponse c) }

/-- A command that completes in the host step that accepts it, with its response (R58). -/
def complete (dout : List Byte) (b : Block) : BlockResult := .next { block := b, rsp := some (okResponse dout) }

/-- A step that gives no response. -/
def silent (b : Block) : BlockResult := .next { block := b, rsp := none }

/-- The reset move: the block takes its reset state, in every state of it, and gives no response; a command that was
running gets none (R23, R130, R131). -/
def blockReset (_ : Block) : BlockResult := silent Block.reset

/-! ### Contexts -/

/-- The block with context F constructed as `c`, or its lanes replaced. -/
def setFull (c : FullCtx) (b : Block) : Block := { b with full := some c }

/-- The block with context N constructed as `w`, or its words replaced. -/
def setNc (w : NcCtx) (b : Block) : Block := { b with nc := some w }

/-- The context with its lanes replaced; `F.LPP` and `F.NR` stay (R14). -/
def setLanes (c : FullCtx) (a : Cube c.lpp.toNat) : FullCtx := { c with a := a }

/-- The check `F.VALID`: `NO_CONTEXT`, or go on with the context (R110). -/
def withFull (b : Block) (k : FullCtx → BlockResult) : BlockResult :=
  match b.full with
  | none => raiseFault .noContext b
  | some c => k c

/-- The check `N.VALID`: `NO_CONTEXT`, or go on with the words (R110). -/
def withNc (b : Block) (k : NcCtx → BlockResult) : BlockResult :=
  match b.nc with
  | none => raiseFault .noContext b
  | some w => k w

/-! ### Rounds -/

/-- `RV`, `RI` and `RE` of a round-starting command (R17, R18). -/
def setRounds (v : Variant) (first stop : BitVec 4) (b : Block) : Block :=
  { b with rv := v, ri := first, re := stop }

/-- `BUSY <- 1`. -/
def setBusy (b : Block) : Block := { b with busy := true }

/-- A command that starts rounds: the response is left to the last engine step (R90). -/
def startRounds (v : Variant) (first stop : BitVec 4) (b : Block) : BlockResult :=
  silent (setBusy (setRounds v first stop b))

/-- The end of an engine step: `RI` advances by 1, and at `RE` the rounds end and the response is given (R83). -/
def advanceRound (b : Block) : BlockResult :=
  if b.ri + 1 = b.re then complete [] { b with ri := b.ri + 1, busy := false }
  else silent { b with ri := b.ri + 1 }

/-! ### The system of the block and the host (R11) -/

/-- The responses the host has received, with the one of this step, if there is one (R141). -/
def hear (r : Option Response) (rs : List Response) : List Response :=
  match r with
  | none => rs
  | some r => rs ++ [r]

/-- The system after a step of the block: the block's next state, and the response received. -/
def receive (o : BlockStep) (s : State) : State := { s with toBlock := o.block, rsps := hear o.rsp s.rsps }

/-- A step of the block, run in the system. It reads the block alone. -/
def onBlock (f : Block → BlockResult) (s : State) : Result :=
  match f s.toBlock with
  | .next o => .next (receive o s)
  | .fault e => .fault e
  | .refused e => .refused e

/-- The system after a fault: `FAULT`, `CAUSE` and the response, nothing else (R112). -/
def faultEntry (c : Cause) (s : State) : State :=
  receive { block := setFault c s.toBlock, rsp := some (faultResponse c) } s

/-- The system with the host's remaining moves replaced. -/
def setMoves (ms : List HostMove) (s : State) : State := { s with moves := ms }

end Sys2Proof.Machine
end

