-- ==== Sys2Proof/Machine/FullCommands.lean ====
section
/-! DEFINITION. The meanings of the seven commands of the Full context (rules R91 to R97). Each is a step of
the block, which makes its checks in the order its rule writes them, the order of the cause codes (R113). -/

namespace Sys2Proof.Machine

open Sys2Proof

/-- `F_NEW` (R91). -/
def blockFNew (lpp : BitVec 3) (nr : BitVec 4) (b : Block) : BlockResult :=
  if ¬LegalLanes lpp then raiseFault .badLanes b
  else if ¬LegalRounds nr then raiseFault .badRounds b
  else complete [] (setFull { lpp := lpp, nr := nr, a := cubeZero lpp.toNat } b)

/-- `F_LOAD` (R92). -/
def blockFLoad (lpp : BitVec 3) (nr : BitVec 4) (buf : InBuf) (b : Block) : BlockResult :=
  if ¬LegalLanes lpp then raiseFault .badLanes b
  else if ¬LegalRounds nr then raiseFault .badRounds b
  else if ¬Fits buf lpp.toNat then raiseFault .oversize b
  else complete [] (setFull { lpp := lpp, nr := nr, a := bufCube buf lpp.toNat } b)

/-- `F_ABSORB` (R93). -/
def blockFAbsorb (buf : InBuf) (b : Block) : BlockResult :=
  withFull b fun c =>
    if ¬Fits buf c.lpp.toNat then raiseFault .oversize b
    else complete [] (setFull (setLanes c (cubeXor c.a (bufCube buf c.lpp.toNat))) b)

/-- `F_ROUND` (R94). -/
def blockFRound (i : BitVec 4) (b : Block) : BlockResult :=
  withFull b fun _ =>
    if ¬LegalRoundIndex i then raiseFault .badRoundIndex b
    else startRounds .F i (i + 1) b

/-- `F_PERMUTE` (R95): with `F.NR = 0` it completes at once and `BUSY` stays 0. -/
def blockFPermute (b : Block) : BlockResult :=
  withFull b fun c =>
    if c.nr = 0 then complete [] (setRounds .F (12 - c.nr) 12 b)
    else startRounds .F (12 - c.nr) 12 b

/-- `F_DIGEST` (R96). -/
def blockFDigest (b : Block) : BlockResult :=
  withFull b fun c => complete (digestBytes c.a) b

/-- `F_GETPLANE` (R97). -/
def blockFGetplane (p : BitVec 4) (b : Block) : BlockResult :=
  withFull b fun c =>
    if h : LegalPlaneIndex p then complete (planeBytes (cubePlane c.a ⟨p.toNat, Nat.lt_succ_of_le h⟩)) b
    else raiseFault .badPlaneIndex b

/-! ### The commands in the system of the block and the host -/

/-- `F_NEW` (R91): the step of the block, run in the system. -/
def execFNew (lpp : BitVec 3) (nr : BitVec 4) (s : State) : Result := onBlock (blockFNew lpp nr) s

/-- `F_LOAD` (R92): the step of the block, run in the system. -/
def execFLoad (lpp : BitVec 3) (nr : BitVec 4) (buf : InBuf) (s : State) : Result := onBlock (blockFLoad lpp nr buf) s

/-- `F_ABSORB` (R93): the step of the block, run in the system. -/
def execFAbsorb (buf : InBuf) (s : State) : Result := onBlock (blockFAbsorb buf) s

/-- `F_ROUND` (R94): the step of the block, run in the system. -/
def execFRound (i : BitVec 4) (s : State) : Result := onBlock (blockFRound i) s

/-- `F_PERMUTE` (R95): the step of the block, run in the system. -/
def execFPermute (s : State) : Result := onBlock blockFPermute s

/-- `F_DIGEST` (R96): the step of the block, run in the system. -/
def execFDigest (s : State) : Result := onBlock blockFDigest s

/-- `F_GETPLANE` (R97): the step of the block, run in the system. -/
def execFGetplane (p : BitVec 4) (s : State) : Result := onBlock (blockFGetplane p) s

end Sys2Proof.Machine
end

