-- ==== Sys2Proof/Machine/NcCommands.lean ====
section
/-! DEFINITION. The meanings of the six commands of the NC context (rules R100 to R105). None reads or writes
anything of context F (R107). -/

namespace Sys2Proof.Machine

open Sys2Proof

/-- `N_INIT` (R100). -/
def blockNInit (b : Block) : BlockResult := complete [] (setNc { w0 := 0, w1 := 0, w2 := 0 } b)

/-- `N_LOAD` (R101). -/
def blockNLoad (buf : InBuf) (b : Block) : BlockResult :=
  if ¬Fits buf 1 then raiseFault .oversize b else complete [] (setNc (bufWords buf) b)

/-- Word-by-word XOR of two NC states (R102). -/
def wordsXor (w v : NcCtx) : NcCtx := { w0 := w.w0 ^^^ v.w0, w1 := w.w1 ^^^ v.w1, w2 := w.w2 ^^^ v.w2 }

/-- `N_ABSORB` (R102). -/
def blockNAbsorb (buf : InBuf) (b : Block) : BlockResult :=
  withNc b fun w =>
    if ¬Fits buf 1 then raiseFault .oversize b
    else complete [] (setNc (wordsXor w (bufWords buf)) b)

/-- `N_ROUND` (R103): any index 0..11, not only 0, 1, 2. -/
def blockNRound (i : BitVec 4) (b : Block) : BlockResult :=
  withNc b fun _ =>
    if ¬LegalRoundIndex i then raiseFault .badRoundIndex b
    else startRounds .N i (i + 1) b

/-- `N_PERMUTE` (R104): rounds 0, 1, 2, whatever `F.NR` is. -/
def blockNPermute (b : Block) : BlockResult :=
  withNc b fun _ => startRounds .N 0 3 b

/-- `N_DIGEST` (R105). -/
def blockNDigest (b : Block) : BlockResult :=
  withNc b fun w => complete (wordsBytes w) b

/-! ### The commands in the system of the block and the host -/

/-- `N_INIT` (R100): the step of the block, run in the system. -/
def execNInit (s : State) : Result := onBlock blockNInit s

/-- `N_LOAD` (R101): the step of the block, run in the system. -/
def execNLoad (buf : InBuf) (s : State) : Result := onBlock (blockNLoad buf) s

/-- `N_ABSORB` (R102): the step of the block, run in the system. -/
def execNAbsorb (buf : InBuf) (s : State) : Result := onBlock (blockNAbsorb buf) s

/-- `N_ROUND` (R103): the step of the block, run in the system. -/
def execNRound (i : BitVec 4) (s : State) : Result := onBlock (blockNRound i) s

/-- `N_PERMUTE` (R104): the step of the block, run in the system. -/
def execNPermute (s : State) : Result := onBlock blockNPermute s

/-- `N_DIGEST` (R105): the step of the block, run in the system. -/
def execNDigest (s : State) : Result := onBlock blockNDigest s

end Sys2Proof.Machine
end

