-- ==== Sys2Proof/Machine/Dispatch.lean ====
section
/-! DEFINITION. One arm per command: what an accepted command does (rule R90, steps 2 and 3). -/

namespace Sys2Proof.Machine

open Sys2Proof

def exec (i : Instr) (s : State) : Host.Outcome State Fault Refusal :=
  match i with
  | .fNew lpp nr => Sys2Proof.Machine.execFNew lpp nr s
  | .fLoad lpp nr buf => Sys2Proof.Machine.execFLoad lpp nr buf s
  | .fAbsorb buf => Sys2Proof.Machine.execFAbsorb buf s
  | .fRound idx => Sys2Proof.Machine.execFRound idx s
  | .fPermute => Sys2Proof.Machine.execFPermute s
  | .fDigest => Sys2Proof.Machine.execFDigest s
  | .fGetplane p => Sys2Proof.Machine.execFGetplane p s
  | .nInit => Sys2Proof.Machine.execNInit s
  | .nLoad buf => Sys2Proof.Machine.execNLoad buf s
  | .nAbsorb buf => Sys2Proof.Machine.execNAbsorb buf s
  | .nRound idx => Sys2Proof.Machine.execNRound idx s
  | .nPermute => Sys2Proof.Machine.execNPermute s
  | .nDigest => Sys2Proof.Machine.execNDigest s

end Sys2Proof.Machine
end

