-- ==== Sys2Proof/Config.lean ====
section
/-! DEFINITION. The sizes the source fixes (rule R6). The spec leaves no value to the implementation that any
rule reads (R8), so there is no free value and no opaque constant here: see notes/assumptions/6.md. -/

namespace Sys2Proof.Config

/-- At most 4 lanes per plane (R6). -/
def maxLanes : Nat := 4

/-- Exactly 3 planes per state, and exactly 3 NC words (R6). -/
def planes : Nat := 3

/-- The length of the round schedule, which is also the number of ROM entries (R6, R20). -/
def scheduleLength : Nat := 12

end Sys2Proof.Config
end

