-- ==== Sys2Proof/Machine/Rom.lean ====
section
/-! DEFINITION. The round-constant ROM (rule R20): a constant of the model, read by the iota step only (R30, R42). -/

namespace Sys2Proof.Machine

open Sys2Proof

/-- The twelve round constants, in index order (R20). -/
def romContents : Vector Lane 12 :=
  #v[0x00000058, 0x00000038, 0x000003C0, 0x000000D0, 0x00000120, 0x00000014,
     0x00000060, 0x0000002C, 0x00000380, 0x000000F0, 0x000001A0, 0x00000012]

/-- `RC[i]`, `i` in 0..11 (R20). -/
def romRead (i : Fin 12) : Lane := romContents[i]

end Sys2Proof.Machine
end

