-- ==== Sys2Proof/Machine/Rounds.lean ====
section
/-! DEFINITION. The five round steps, the round of both variants and the permutes as functions (rules R74 to R83,
R95, R104). The six shift pairs are those of R72. -/

namespace Sys2Proof.Machine

open Sys2Proof

/-- The column parity plane `P` of theta (R74). -/
def thetaParity {n : Nat} (s : Cube n) : Plane n := planeXor (planeXor s.a0 s.a1) s.a2

/-- The plane `E` of theta, computed wholly from the planes before the step (R74). -/
def thetaEffect {n : Nat} (s : Cube n) : Plane n :=
  planeXor (planeShift (thetaParity s) 1 5) (planeShift (thetaParity s) 1 14)

/-- Theta: `E` XORed into all three planes (R74). -/
def theta {n : Nat} (s : Cube n) : Cube n :=
  { a0 := planeXor s.a0 (thetaEffect s), a1 := planeXor s.a1 (thetaEffect s), a2 := planeXor s.a2 (thetaEffect s) }

/-- Rho-west: plane 1 by one lane, plane 2 by 11 bits (R75). -/
def rhoWest {n : Nat} (s : Cube n) : Cube n :=
  { s with a1 := planeShift s.a1 1 0, a2 := planeShift s.a2 0 11 }

/-- Iota: the round constant of the absolute index `i` into lane 0 of plane 0 (R76). -/
def iota {n : Nat} (s : Cube n) (i : Fin 12) : Cube n :=
  { s with a0 := planeXorWord s.a0 0 (romRead i) }

/-- Chi: all three planes from the values before the step (R77). -/
def chi {n : Nat} (s : Cube n) : Cube n :=
  { a0 := planeXor s.a0 (planeAnd (planeNot s.a1) s.a2),
    a1 := planeXor s.a1 (planeAnd (planeNot s.a2) s.a0),
    a2 := planeXor s.a2 (planeAnd (planeNot s.a0) s.a1) }

/-- Rho-east: plane 1 by one bit, plane 2 by two lanes and 8 bits (R78). -/
def rhoEast {n : Nat} (s : Cube n) : Cube n :=
  { s with a1 := planeShift s.a1 0 1, a2 := planeShift s.a2 2 8 }

/-- `RoundF(S, i)`: the five steps in order (R79). -/
def roundF {n : Nat} (s : Cube n) (i : Fin 12) : Cube n := rhoEast (chi (iota (rhoWest (theta s)) i))

/-- The NC theta on three words, with the amounts of the Full theta (R80). -/
def thetaN (w : NcCtx) : NcCtx :=
  let p := w.w0 ^^^ w.w1 ^^^ w.w2
  let e := rotl32 p 5 ^^^ rotl32 p 14
  { w0 := w.w0 ^^^ e, w1 := w.w1 ^^^ e, w2 := w.w2 ^^^ e }

/-- The NC rho-west: word 2 by 11 bits (R80). -/
def rhoWestN (w : NcCtx) : NcCtx := { w with w2 := rotl32 w.w2 11 }

/-- The NC iota: the round constant into word 0 (R80). -/
def iotaN (w : NcCtx) (i : Fin 12) : NcCtx := { w with w0 := w.w0 ^^^ romRead i }

/-- The NC chi, all three words from the values before it (R80). -/
def chiN (w : NcCtx) : NcCtx :=
  { w0 := w.w0 ^^^ (~~~w.w1 &&& w.w2), w1 := w.w1 ^^^ (~~~w.w2 &&& w.w0), w2 := w.w2 ^^^ (~~~w.w0 &&& w.w1) }

/-- The NC rho-east: word 1 by 1 bit, word 2 by 8 bits (R80). -/
def rhoEastN (w : NcCtx) : NcCtx := { w with w1 := rotl32 w.w1 1, w2 := rotl32 w.w2 8 }

/-- `RoundN(w, i)` (R80). -/
def roundN (w : NcCtx) (i : Fin 12) : NcCtx := rhoEastN (chiN (iotaN (rhoWestN (thetaN w)) i))

/-- The last `k` indices of the schedule, `12-k .. 11`, in ascending order (R95). -/
def lastRounds (k : Nat) : List (Fin 12) := (List.finRange 12).drop (12 - k)

/-- `PermuteF(S, NR)`: the last `NR` rounds of the schedule (R95). -/
def permuteF {n : Nat} (s : Cube n) (k : Nat) : Cube n := (lastRounds k).foldl roundF s

/-- `PermuteN(w)`: rounds 0, 1, 2 (R104). -/
def permuteN (w : NcCtx) : NcCtx := roundN (roundN (roundN w 0) 1) 2

end Sys2Proof.Machine
end

