-- ==== Sys2Proof/Machine/Engine.lean ====
section
/-! DEFINITION. The engine step (rule R83): the one transition of the engine agent, one whole round (R84; DESIGN CHOICE,
safe: notes/assumptions/12.md). -/

namespace Sys2Proof.Machine

open Sys2Proof

/-- The engine step, enabled when `BUSY = 1` (R83): one round of the context `RV` names at the index `RI`. It stops
only outside the states R19 (b) allows: an index the ROM has no entry for, or a context that holds no lanes. -/
def blockEngine (b : Block) : BlockResult :=
  if h : b.ri.toNat < 12 then
    match b.rv with
    | .F =>
      match b.full with
      | none => .fault .engineNoContext
      | some c => advanceRound (setFull (setLanes c (roundF c.a ⟨b.ri.toNat, h⟩)) b)
    | .N =>
      match b.nc with
      | none => .fault .engineNoContext
      | some w => advanceRound (setNc (roundN w ⟨b.ri.toNat, h⟩) b)
  else .fault .romIndex

/-- The engine step (R83), run in the system. -/
def engineStep (s : State) : Result := onBlock blockEngine s

end Sys2Proof.Machine
end

