-- ==== Sys2Proof/Machine/Port.lean ====
section
/-! DEFINITION. The command port: accepting a command (rule R90) and the step of the block, on `Block` alone (R21); then
the turn of the two agents (R11, R90, R130, R133). The host's next move is the head of `moves`; which move comes when is
the host's affair, so every interleaving of commands, resets and engine steps is some list of moves (DESIGN CHOICE,
unsafe only for a count of turns: notes/assumptions/3.md). -/

namespace Sys2Proof.Machine

open Sys2Proof

/-! ### The block -/

/-- The rule of an accepted command (R90, step 3): one arm per command, as in `exec`. -/
def blockExec (i : Instr) (b : Block) : BlockResult :=
  match i with
  | .fNew lpp nr => blockFNew lpp nr b
  | .fLoad lpp nr buf => blockFLoad lpp nr buf b
  | .fAbsorb buf => blockFAbsorb buf b
  | .fRound idx => blockFRound idx b
  | .fPermute => blockFPermute b
  | .fDigest => blockFDigest b
  | .fGetplane p => blockFGetplane p b
  | .nInit => blockNInit b
  | .nLoad buf => blockNLoad buf b
  | .nAbsorb buf => blockNAbsorb buf b
  | .nRound idx => blockNRound idx b
  | .nPermute => blockNPermute b
  | .nDigest => blockNDigest b

/-- The host step (R90): decode, then the command's own rule; a word that matches no row raises `ILLEGAL_CMD`. -/
def blockAccept (c : Command) (b : Block) : BlockResult :=
  match decode c with
  | .ok i => blockExec i b
  | .error _ => raiseFault .illegalCmd b

/-- What the block does in a step in which the host drives neither a reset nor a command: an engine step while
`BUSY = 1` (R83), else it waits and holds all state (R121). -/
def blockUndisturbed (b : Block) : BlockResult := if b.busy then blockEngine b else silent b

/-- One step of the block, by what the host drives in it: nothing, a command or a reset (R11, R21). A reset is taken in
every state (R130). A command offered while `BUSY = 1` waits at the port, not lost and not faulted, and the engine goes
on (R133). A command offered while `FAULT = 1` is never accepted (R114). -/
def blockTurn (m : Option HostMove) (b : Block) : BlockResult :=
  match m with
  | none => blockUndisturbed b
  | some .idle => blockUndisturbed b
  | some .reset => blockReset b
  | some (.offer c) =>
    if b.busy then blockUndisturbed b
    else if b.fault then silent b
    else blockAccept c b

/-! ### The host and the system -/

/-- The host step (R90), run in the system. -/
def acceptCommand (c : Command) (s : State) : Result := onBlock (blockAccept c) s

/-- The moves the host has left after a turn: an offer made while `BUSY = 1` is held (R133), every other move is used
up. That the host gives up an offer made while `FAULT = 1`, the block being as it was, is the model's choice (DESIGN
CHOICE, safe for the block: notes/assumptions/4.md). -/
def movesAfter (busy : Bool) (ms : List HostMove) : List HostMove :=
  match ms with
  | [] => []
  | .idle :: ms => ms
  | .reset :: ms => ms
  | .offer c :: ms => if busy then .offer c :: ms else ms

/-- One turn of the system: the host drives its next move, the block makes its step, the host receives the response.
The block's step reads the block and that move alone (R21). -/
def turn (s : State) : Result :=
  onBlock (blockTurn s.moves.head?) (setMoves (movesAfter s.busy s.moves) s)

/-- The state with a command as the host's next move. -/
def offerFirst (c : Command) (s : State) : State := setMoves (.offer c :: s.moves) s

/-- The state with a word of the opcode table as the host's next move; a value that is no 16-bit word is not
offered. -/
def offerTableWord (s : State) (nbits w : Nat) : State :=
  match tableCommand nbits w with
  | some c => offerFirst c s
  | none => s

end Sys2Proof.Machine
end

