-- ==== Sys2Proof/Machine/Step.lean ====
section
/-! DEFINITION. One step of the machine, and where the next instruction stands: at the command port. -/

namespace Sys2Proof.Machine

open Sys2Proof

/-- One step: one turn of the host and the engine (R11, R90). -/
def step (s : State) : Host.Outcome State Fault Refusal := turn s

/-- The state with the word offered at the command port, which is where the machine takes its next instruction
from (R45; DESIGN CHOICE, safe: notes/assumptions/5.md). -/
def State.withFetchWord (s : State) (nbits w : Nat) : State := offerTableWord s nbits w

end Sys2Proof.Machine
end

