-- ==== Sys2Proof/Machine/Script.lean ====
section
/-! DEFINITION. Command scripts (rules R56, R57): the lines of a script, how their text is read, the move each one
stands for, and the source's operation names. Where R56 leaves a detail of the text open the reader refuses it
(DESIGN CHOICE, safe: notes/assumptions/17.md). -/

namespace Sys2Proof.Machine

open Sys2Proof

/-- One piece of a `hex:` buffer: the byte `NN`, or `NN*k` for `k` of them (R56). -/
structure HexPiece where
  byte : Byte
  times : Nat
deriving DecidableEq, Repr

/-- One line of a command script (R56). `lpp` is absent where the line omits it. -/
inductive ScriptLine where
  | fNew (nr : Nat) (lpp : Option Nat)
  | fLoad (nr : Nat) (lpp : Option Nat) (hex : List HexPiece)
  | fAbsorb (hex : List HexPiece)
  | fRound (i : Nat)
  | fPermute
  | fDigest
  | fGetplane (p : Nat)
  | nInit
  | nLoad (hex : List HexPiece)
  | nAbsorb (hex : List HexPiece)
  | nRound (i : Nat)
  | nPermute
  | nDigest
  | reset
deriving DecidableEq, Repr

/-- The bytes of a buffer, byte 0 first (R56). -/
def hexBytes (hex : List HexPiece) : List Byte := hex.flatMap fun h => List.replicate h.times h.byte

/-- The bytes as one number, byte `k` at the bits `8k+7 .. 8k`. -/
def packBytes : List Byte → Nat
  | [] => 0
  | b :: bs => b.toNat + 256 * packBytes bs

/-- The input buffer of a byte list: more than 63 bytes are refused, and of 49 to 63 bytes `din` has the first 48
(R56). -/
def bufferOf (bs : List Byte) : Option InBuf :=
  if bs.length ≤ 63 then
    some { din := BitVec.ofNat 384 (packBytes (bs.take 48)), dinLen := BitVec.ofNat 6 bs.length }
  else none

/-- `lpp=` when the line omits it: the source's default of 4 (R7, R56). -/
def defaultLanes : Nat := 4

/-- The two configuration fields: operands that fit their fields pass, legal or not, and others are refused (R56). -/
def configFields (nr : Nat) (lpp : Option Nat) : Option (BitVec 3 × BitVec 4) :=
  if nr ≤ 15 ∧ lpp.getD defaultLanes ≤ 7 then
    some (BitVec.ofNat 3 (lpp.getD defaultLanes), BitVec.ofNat 4 nr)
  else none

/-- An index field: an index above 15 is refused (R56). -/
def indexField (i : Nat) : Option (BitVec 4) := if i ≤ 15 then some (BitVec.ofNat 4 i) else none

/-- The instruction a line names; none for `RESET`, which is no command word, and where the assembler refuses. -/
def lineInstr (l : ScriptLine) : Option Instr :=
  match l with
  | .fNew nr lpp => (configFields nr lpp).map fun c => .fNew c.1 c.2
  | .fLoad nr lpp hex => (configFields nr lpp).bind fun c => (bufferOf (hexBytes hex)).map fun b => .fLoad c.1 c.2 b
  | .fAbsorb hex => (bufferOf (hexBytes hex)).map .fAbsorb
  | .fRound i => (indexField i).map .fRound
  | .fPermute => some .fPermute
  | .fDigest => some .fDigest
  | .fGetplane p => (indexField p).map .fGetplane
  | .nInit => some .nInit
  | .nLoad hex => (bufferOf (hexBytes hex)).map .nLoad
  | .nAbsorb hex => (bufferOf (hexBytes hex)).map .nAbsorb
  | .nRound i => (indexField i).map .nRound
  | .nPermute => some .nPermute
  | .nDigest => some .nDigest
  | .reset => none

/-- The host's move a line stands for; none where the assembler refuses the line (R56). -/
def assembleLine (l : ScriptLine) : Option HostMove :=
  match l with
  | .reset => some .reset
  | other => (lineInstr other).map fun i => .offer (encode i)

/-- The moves of a whole script, in order; none if a line is refused. -/
def scriptMoves : List ScriptLine → Option (List HostMove)
  | [] => some []
  | l :: ls => (assembleLine l).bind fun m => (scriptMoves ls).map fun ms => m :: ms

/-- The source's operation names, accepted as aliases (R57). -/
inductive SourceOp where
  | new (nr : Nat) (lpp : Option Nat)
  | newFromBytes (data : List HexPiece) (nr : Nat) (lpp : Option Nat)
  | next (data : List HexPiece)
  | xorState (data : List HexPiece)
  | round (i : Nat)
  | permute
  | digest
  | getState
  | getPlane (p : Nat)
  | newNc (data : List HexPiece)
  | initializeNc
  | xorStateNc (data : List HexPiece)
  | roundNc (i : Nat)
  | permuteNc
  | digestNc
deriving DecidableEq, Repr

/-- The expansion of an alias (R57). -/
def expandSourceOp (o : SourceOp) : ScriptLine :=
  match o with
  | .new nr lpp => .fNew nr lpp
  | .newFromBytes data nr lpp => .fLoad nr lpp data
  | .next data => .fAbsorb data
  | .xorState data => .fAbsorb data
  | .round i => .fRound i
  | .permute => .fPermute
  | .digest => .fDigest
  | .getState => .fDigest
  | .getPlane p => .fGetplane p
  | .newNc data => .nLoad data
  | .initializeNc => .nInit
  | .xorStateNc data => .nAbsorb data
  | .roundNc i => .nRound i
  | .permuteNc => .nPermute
  | .digestNc => .nDigest

/-! ### The text of a line (R56) -/

/-- A space between the parts of a line. R56 says "spaces allowed" and does not name a tab: a tab is no space here, and
a line that holds one outside its comment is refused (DESIGN CHOICE, safe: notes/assumptions/17.md). -/
def isBlank (c : Char) : Bool := c == ' '

/-- The line without its comment, which `;` starts. -/
def cutComment (cs : List Char) : List Char := cs.takeWhile fun c => c != ';'

/-- The text without the spaces at its two ends. -/
def trimText (cs : List Char) : List Char := ((cs.dropWhile isBlank).reverse.dropWhile isBlank).reverse

/-- The operands, separated by commas. -/
def splitCommas : List Char → List (List Char)
  | [] => [[]]
  | c :: cs =>
    if c == ',' then [] :: splitCommas cs
    else match splitCommas cs with
      | [] => [[c]]
      | w :: ws => (c :: w) :: ws

/-- The text after a given beginning. -/
def afterPrefix : List Char → List Char → Option (List Char)
  | [], cs => some cs
  | _ :: _, [] => none
  | p :: ps, c :: cs => if p == c then afterPrefix ps cs else none

/-- The value of a decimal digit. -/
def decimalDigit (c : Char) : Option Nat :=
  if 48 ≤ c.toNat ∧ c.toNat ≤ 57 then some (c.toNat - 48) else none

/-- The value of a hexadecimal digit, in either case of the letters. -/
def hexDigit (c : Char) : Option Nat :=
  if 65 ≤ c.toNat ∧ c.toNat ≤ 70 then some (c.toNat - 55)
  else if 97 ≤ c.toNat ∧ c.toNat ≤ 102 then some (c.toNat - 87)
  else decimalDigit c

/-- The digits of a number from the left, `n` being the value of those already read. -/
def readDigits (base : Nat) (digit : Char → Option Nat) : List Char → Nat → Option Nat
  | [], n => some n
  | c :: cs, n => (digit c).bind fun d => readDigits base digit cs (base * n + d)

/-- A number: decimal, or hexadecimal with `0x`. -/
def readNumber (cs : List Char) : Option Nat :=
  match afterPrefix ['0', 'x'] cs with
  | some ds => if ds.isEmpty then none else readDigits 16 hexDigit ds 0
  | none => if cs.isEmpty then none else readDigits 10 decimalDigit cs 0

/-- Where the reader of a `hex:` buffer stands: between bytes, after one digit of a byte, after a whole byte, or in
the count of `NN*k`. -/
inductive HexMode where
  | between
  | half (n : Nat)
  | whole (b : Byte)
  | count (b : Byte) (k : Option Nat)
deriving DecidableEq, Repr

/-- A character between two bytes: a space, or the first digit of a byte. -/
def startByte (c : Char) (acc : List HexPiece) : Option (HexMode × List HexPiece) :=
  if isBlank c then some (.between, acc) else (hexDigit c).map fun n => (.half n, acc)

/-- One character of a `hex:` buffer; the pieces read so far are kept last first. -/
def hexChar (m : HexMode) (c : Char) (acc : List HexPiece) : Option (HexMode × List HexPiece) :=
  match m with
  | .between => startByte c acc
  | .half n => (hexDigit c).map fun d => (.whole (BitVec.ofNat 8 (16 * n + d)), acc)
  | .whole b => if c == '*' then some (.count b none, acc) else startByte c (⟨b, 1⟩ :: acc)
  | .count b none => (decimalDigit c).map fun d => (.count b (some d), acc)
  | .count b (some k) =>
    if isBlank c then some (.between, ⟨b, k⟩ :: acc)
    else (decimalDigit c).map fun d => (.count b (some (10 * k + d)), acc)

/-- A `hex:` buffer from where the reader stands. -/
def readHex : List Char → HexMode → List HexPiece → Option (List HexPiece)
  | [], .between, acc => some acc.reverse
  | [], .half _, _ => none
  | [], .whole b, acc => some (⟨b, 1⟩ :: acc).reverse
  | [], .count _ none, _ => none
  | [], .count b (some k), acc => some (⟨b, k⟩ :: acc).reverse
  | c :: cs, m, acc => (hexChar m c acc).bind fun r => readHex cs r.1 r.2

/-- The operand `hex:<bytes>`. -/
def readBuffer (cs : List Char) : Option (List HexPiece) :=
  (afterPrefix ['h', 'e', 'x', ':'] cs).bind fun ds => readHex ds .between []

/-- The operand `nr=<number>`. -/
def readNr (cs : List Char) : Option Nat := (afterPrefix ['n', 'r', '='] cs).bind readNumber

/-- The operand `lpp=<number>`. -/
def readLpp (cs : List Char) : Option Nat := (afterPrefix ['l', 'p', 'p', '='] cs).bind readNumber

/-- A line with no operand. -/
def readBare (ops : List (List Char)) (l : ScriptLine) : Option ScriptLine := if ops.isEmpty then some l else none

/-- A line with one operand. -/
def readOne {α : Type} (ops : List (List Char)) (read : List Char → Option α) (f : α → ScriptLine) :
    Option ScriptLine :=
  match ops with
  | [a] => (read a).map f
  | _ => none

/-- The operands of `F_NEW`. -/
def readNewOperands (ops : List (List Char)) : Option ScriptLine :=
  match ops with
  | [a] => (readNr a).map fun nr => .fNew nr none
  | [a, b] => (readNr a).bind fun nr => (readLpp b).map fun lpp => .fNew nr (some lpp)
  | _ => none

/-- The operands of `F_LOAD`. -/
def readLoadOperands (ops : List (List Char)) : Option ScriptLine :=
  match ops with
  | [a, c] => (readNr a).bind fun nr => (readBuffer c).map fun hex => .fLoad nr none hex
  | [a, b, c] =>
    (readNr a).bind fun nr => (readLpp b).bind fun lpp => (readBuffer c).map fun hex => .fLoad nr (some lpp) hex
  | _ => none

/-- A line that holds a command: its name, then its operands, in the form R56 lists for it. -/
def readCommand (name : List Char) (ops : List (List Char)) : Option ScriptLine :=
  if name == ['F', '_', 'N', 'E', 'W'] then readNewOperands ops
  else if name == ['F', '_', 'L', 'O', 'A', 'D'] then readLoadOperands ops
  else if name == ['F', '_', 'A', 'B', 'S', 'O', 'R', 'B'] then readOne ops readBuffer .fAbsorb
  else if name == ['F', '_', 'R', 'O', 'U', 'N', 'D'] then readOne ops readNumber .fRound
  else if name == ['F', '_', 'P', 'E', 'R', 'M', 'U', 'T', 'E'] then readBare ops .fPermute
  else if name == ['F', '_', 'D', 'I', 'G', 'E', 'S', 'T'] then readBare ops .fDigest
  else if name == ['F', '_', 'G', 'E', 'T', 'P', 'L', 'A', 'N', 'E'] then readOne ops readNumber .fGetplane
  else if name == ['N', '_', 'I', 'N', 'I', 'T'] then readBare ops .nInit
  else if name == ['N', '_', 'L', 'O', 'A', 'D'] then readOne ops readBuffer .nLoad
  else if name == ['N', '_', 'A', 'B', 'S', 'O', 'R', 'B'] then readOne ops readBuffer .nAbsorb
  else if name == ['N', '_', 'R', 'O', 'U', 'N', 'D'] then readOne ops readNumber .nRound
  else if name == ['N', '_', 'P', 'E', 'R', 'M', 'U', 'T', 'E'] then readBare ops .nPermute
  else if name == ['N', '_', 'D', 'I', 'G', 'E', 'S', 'T'] then readBare ops .nDigest
  else if name == ['R', 'E', 'S', 'E', 'T'] then readBare ops .reset
  else none

/-- The operands in the text after the name. -/
def readOperands (rest : List Char) : List (List Char) :=
  if rest.isEmpty then [] else (splitCommas rest).map trimText

/-- The line a text holds: nothing where it is empty or a comment (`some none`), and no line where the text is not of
the form R56 gives. -/
def readLine (cs : List Char) : Option (Option ScriptLine) :=
  let text := trimText (cutComment cs)
  if text.isEmpty then some none
  else
    let name := text.takeWhile fun c => !isBlank c
    let rest := trimText (text.dropWhile fun c => !isBlank c)
    (readCommand name (readOperands rest)).map some

end Sys2Proof.Machine
end

