-- ==== Sys2Proof/Safety.lean ====
section
/-! DEFINITION. What counts as a good state and as a good run, in the terms the statements use (rules R19, R141). -/

namespace Sys2Proof.Machine

open Sys2Proof

/-- R19 (a): `BUSY` and `FAULT` are never both 1. -/
def BusyFaultExclusive (s : State) : Prop := ¬(s.busy = true ∧ s.fault = true)

/-- R19 (b): while `BUSY = 1`, `0 <= RI < RE <= 12` and the context `RV` selects is valid. -/
def RoundsInRange (s : State) : Prop :=
  s.busy = true → s.ri.toNat < s.re.toNat ∧ s.re.toNat ≤ 12 ∧ contextValid s.toBlock s.rv = true

/-- R19 (c): when `F.VALID = 1`, `1 <= F.LPP <= 4` and `F.NR <= 12`. -/
def FullConfigLegal (s : State) : Prop := ∀ c, s.full = some c → LegalLanes c.lpp ∧ LegalRounds c.nr

/-- R19 (d): `CAUSE = 0` if and only if `FAULT = 0`. -/
def CauseIffFault (s : State) : Prop := s.cause = .none ↔ s.fault = false

/-- The four invariants of R19. -/
def ControllerInv (s : State) : Prop := BusyFaultExclusive s ∧ RoundsInRange s ∧ FullConfigLegal s ∧ CauseIffFault s

/-- The host leaves the block alone in the next step: it has no move left, or it holds a command at the port. -/
def HostWaits (s : State) : Prop := s.moves = [] ∨ ∃ c ms, s.moves = .offer c :: ms

/-- `k` steps, stopping at the first stop (R141: a run is a finite sequence of moves with the engine steps they
cause). -/
def steps : Nat → State → Result
  | 0, s => .next s
  | k + 1, s =>
    match step s with
    | .next t => steps k t
    | .fault r => .fault r
    | .refused r => .refused r

/-! ### The end of a run (R141) -/

/-- The next turn accepts a command: one is offered, `BUSY = 0` and `FAULT = 0` (R90). -/
def acceptsNow (s : State) : Bool :=
  match s.moves with
  | .offer _ :: _ => hostStepEnabled s.toBlock
  | _ => false

/-- The next turn is a reset that abandons running rounds: their command never gets a response (R131). -/
def abandonsNow (s : State) : Bool :=
  match s.moves with
  | .reset :: _ => s.busy
  | _ => false

/-- How many of `k` turns from a state have the given property. -/
def countTurns (p : State → Bool) : Nat → State → Nat
  | 0, _ => 0
  | k + 1, s =>
    (p s).toNat +
      match step s with
      | .next t => countTurns p k t
      | .fault _ => 0
      | .refused _ => 0

/-- The commands of a run of `k` turns: those accepted in it, and the one whose rounds run when it starts. -/
def commandsOf (k : Nat) (s : State) : Nat := s.busy.toNat + countTurns acceptsNow k s

/-- R141: the run of `k` turns from `s` has ended well in `t`: the host has issued its last command, `BUSY = 0`,
`FAULT = 0`, and every accepted command has had its response. A command whose rounds a reset abandoned has had none,
and the run has then not ended well (R131). -/
structure EndedWell (k : Nat) (s t : State) : Prop where
  runs : steps k s = .next t
  lastMove : t.moves = []
  idle : t.busy = false
  noFault : t.fault = false
  answered : t.rsps.length = s.rsps.length + commandsOf k s

/-- R141: the run has ended badly: it stopped with `FAULT = 1`. -/
structure EndedBadly (k : Nat) (s t : State) : Prop where
  runs : steps k s = .next t
  lastMove : t.moves = []
  fault : t.fault = true

/-! ### Runs and contexts (R107) -/

/-- The same outcome, its next state changed by `f`. -/
def mapNext (f : State → State) (r : Result) : Result :=
  match r with
  | .next s => .next (f s)
  | .fault e => .fault e
  | .refused e => .refused e

/-- The state with context F replaced by any other value of it, constructed or not (R107). -/
def replaceFull (f : Option FullCtx) (s : State) : State := { s with full := f }

/-- The state with context N replaced by any other value of it, constructed or not (R107). -/
def replaceNc (w : Option NcCtx) (s : State) : State := { s with nc := w }

/-! ### Kinds of commands, by the tables of the spec -/

/-- The command works on context F (R49). -/
def isFull (i : Instr) : Bool :=
  match i with
  | .fNew _ _ => true
  | .fLoad _ _ _ => true
  | .fAbsorb _ => true
  | .fRound _ => true
  | .fPermute => true
  | .fDigest => true
  | .fGetplane _ => true
  | .nInit => false
  | .nLoad _ => false
  | .nAbsorb _ => false
  | .nRound _ => false
  | .nPermute => false
  | .nDigest => false

/-- The command reads the input buffer (R30, R45). -/
def takesData (i : Instr) : Bool :=
  match i with
  | .fNew _ _ => false
  | .fLoad _ _ _ => true
  | .fAbsorb _ => true
  | .fRound _ => false
  | .fPermute => false
  | .fDigest => false
  | .fGetplane _ => false
  | .nInit => false
  | .nLoad _ => true
  | .nAbsorb _ => true
  | .nRound _ => false
  | .nPermute => false
  | .nDigest => false

/-- The command writes `F.VALID`, `F.LPP`, `F.NR` or `A` (R24). -/
def writesFull (i : Instr) : Bool :=
  match i with
  | .fNew _ _ => true
  | .fLoad _ _ _ => true
  | .fAbsorb _ => true
  | .fRound _ => false
  | .fPermute => false
  | .fDigest => false
  | .fGetplane _ => false
  | .nInit => false
  | .nLoad _ => false
  | .nAbsorb _ => false
  | .nRound _ => false
  | .nPermute => false
  | .nDigest => false

/-- The command writes `N.VALID` or `W` (R24). -/
def writesNc (i : Instr) : Bool :=
  match i with
  | .fNew _ _ => false
  | .fLoad _ _ _ => false
  | .fAbsorb _ => false
  | .fRound _ => false
  | .fPermute => false
  | .fDigest => false
  | .fGetplane _ => false
  | .nInit => true
  | .nLoad _ => true
  | .nAbsorb _ => true
  | .nRound _ => false
  | .nPermute => false
  | .nDigest => false

/-- The command writes `BUSY`, `RI`, `RE` and `RV` (R24). -/
def startsRounds (i : Instr) : Bool :=
  match i with
  | .fNew _ _ => false
  | .fLoad _ _ _ => false
  | .fAbsorb _ => false
  | .fRound _ => true
  | .fPermute => true
  | .fDigest => false
  | .fGetplane _ => false
  | .nInit => false
  | .nLoad _ => false
  | .nAbsorb _ => false
  | .nRound _ => true
  | .nPermute => true
  | .nDigest => false

/-- The command creates its context, so that it never raises `NO_CONTEXT` (R111). -/
def constructs (i : Instr) : Bool :=
  match i with
  | .fNew _ _ => true
  | .fLoad _ _ _ => true
  | .fAbsorb _ => false
  | .fRound _ => false
  | .fPermute => false
  | .fDigest => false
  | .fGetplane _ => false
  | .nInit => true
  | .nLoad _ => true
  | .nAbsorb _ => false
  | .nRound _ => false
  | .nPermute => false
  | .nDigest => false

/-- The context the command addresses exists, or the command creates it (R110, cause 2). -/
def addressed (i : Instr) (s : State) : Bool :=
  constructs i || (if isFull i then fValid s.toBlock else nValid s.toBlock)

/-- The causes a decoded command can raise, by the column of R110. -/
def mayRaise (i : Instr) (c : Cause) : Bool :=
  match c with
  | .none => false
  | .illegalCmd => false
  | .noContext => !constructs i
  | .badLanes => match i with
    | .fNew _ _ => true
    | .fLoad _ _ _ => true
    | _ => false
  | .badRounds => match i with
    | .fNew _ _ => true
    | .fLoad _ _ _ => true
    | _ => false
  | .badRoundIndex => match i with
    | .fRound _ => true
    | .nRound _ => true
    | _ => false
  | .badPlaneIndex => match i with
    | .fGetplane _ => true
    | _ => false
  | .oversize => takesData i

/-! ### The commands of one context in a run (R107) -/

/-- The context a command works on (R49). -/
def contextOf (i : Instr) : Variant := if isFull i then .F else .N

/-- The move offers a command of the given context. -/
def offersOn (v : Variant) (m : HostMove) : Bool :=
  match m with
  | .offer c =>
    match decode c with
    | .ok i => contextOf i == v
    | .error _ => false
  | .idle => false
  | .reset => false

/-- The state with only the commands of one context left of the host's moves. -/
def onlyCommandsOf (v : Variant) (s : State) : State := setMoves (s.moves.filter (offersOn v)) s

/-- The next turn works on the given context: its rounds run, or a command of it is accepted. -/
def worksOn (v : Variant) (s : State) : Bool :=
  if s.busy then s.rv == v
  else match s.moves with
    | m :: _ => offersOn v m
    | [] => false

/-- The responses that the commands of one context get in `k` turns, in order. -/
def responsesOf (v : Variant) : Nat → State → List Response
  | 0, _ => []
  | k + 1, s =>
    match step s with
    | .next t => (if worksOn v s then t.rsps.drop s.rsps.length else []) ++ responsesOf v k t
    | .fault _ => []
    | .refused _ => []

/-- The run of `k` turns from an idle state has come to its end in `t` without a reset and without a fault. -/
structure UndisturbedRun (k : Nat) (s t : State) : Prop where
  runs : steps k s = .next t
  startsIdle : s.busy = false
  noReset : .reset ∉ s.moves
  lastMove : t.moves = []
  idle : t.busy = false
  noFault : t.fault = false

end Sys2Proof.Machine
end

