-- ==== Sys2Proof/WellFormed.lean ====
section
/-! DEFINITION. Well-formedness of an instruction: every operand is in the legal range the encoding rules give it
(R50, R51, R52) and the buffer is no longer than the widest state it can address (R38). An ill-formed instruction
still decodes and still runs: it faults (R50 to R52), which the meanings say for themselves. -/

namespace Sys2Proof

/-- `LPP` in 1..4 (R50). -/
def laneCountOk (lpp : BitVec 3) : Bool := decide (1 ≤ lpp.toNat ∧ lpp.toNat ≤ Config.maxLanes)

/-- `NR` in 0..12 (R51). -/
def roundCountOk (nr : BitVec 4) : Bool := decide (nr.toNat ≤ Config.scheduleLength)

/-- A round index in 0..11 (R52). -/
def roundIndexOk (i : BitVec 4) : Bool := decide (i.toNat < Config.scheduleLength)

/-- A plane index in 0..2 (R52). -/
def planeIndexOk (p : BitVec 4) : Bool := decide (p.toNat < Config.planes)

/-- The buffer fits a state of `lanes` lanes per plane: `din_len <= 12 * lanes` (R38). -/
def bufferFits (buf : InBuf) (lanes : Nat) : Bool := decide (buf.dinLen.toNat ≤ 12 * lanes)

/-- Every operand of the instruction is legal by itself, whatever the state (R38, R50, R51, R52). The width that
bounds `F_ABSORB` is the current `F.LPP`, so only its largest value bounds the instruction alone (DESIGN CHOICE,
safe: notes/assumptions/14.md). -/
def Instr.wellFormed : Instr → Bool
  | .fNew lpp nr => laneCountOk lpp && roundCountOk nr
  | .fLoad lpp nr buf => laneCountOk lpp && roundCountOk nr && bufferFits buf lpp.toNat
  | .fAbsorb buf => bufferFits buf Config.maxLanes
  | .fRound i => roundIndexOk i
  | .fPermute => true
  | .fDigest => true
  | .fGetplane p => planeIndexOk p
  | .nInit => true
  | .nLoad buf => bufferFits buf 1
  | .nAbsorb buf => bufferFits buf 1
  | .nRound i => roundIndexOk i
  | .nPermute => true
  | .nDigest => true

end Sys2Proof
end

