-- ==== Sys2Proof/Certificates/Slice0/Obligations.lean ====
section
/-! DEFINITION. The statements for the provers. Each says which rules of spec/ it formalises; `State.reset`, `exec`,
`step` and the named operations are the model's own. -/

open Sys2Proof Sys2Proof.Machine

/-! ### Encoding and decoding -/

/-- Decoding the encoded command gives the command back, every operand at every value (R47, R54). -/
def Obligations.EncodedCommandDecodes : Prop :=
  ∀ i : Instr, decode (encode i) = .ok i

/-- A decoded word re-encodes to itself, and so does the buffer of a data-taking command: the decoder drops no bit
(R45, R47, R53, R54). -/
def Obligations.DecodedCommandReencodes : Prop :=
  ∀ (c : Command) (i : Instr), decode c = .ok i →
    encodeWord i = c.cmd ∧ (takesData i = true → encodeBuf i = c.buf)

/-- R53, with the words R54 adds: a word is illegal exactly when its `OP` is 0 or 8..15, or it is get-plane on NC,
or a field its command does not use is not 0; no word matches two rows of the opcode map, and a word that matches a
row is that row's command with the operands of the word. -/
def Obligations.IllegalWordsAreExactly : Prop :=
  (∀ c : Command, (∃ e, decode c = .error e) ↔
    (opField c.cmd).toNat = 0 ∨ 8 ≤ (opField c.cmd).toNat ∨
    ((opField c.cmd).toNat = 7 ∧ vField c.cmd = 1) ∨
    (((opField c.cmd).toNat = 1 ∨ (opField c.cmd).toNat = 2) ∧ vField c.cmd = 0 ∧ idxField c.cmd ≠ 0) ∨
    (((opField c.cmd).toNat = 4 ∨ ((opField c.cmd).toNat = 7 ∧ vField c.cmd = 0)) ∧
      (lppField c.cmd ≠ 0 ∨ nrField c.cmd ≠ 0)) ∨
    (((opField c.cmd).toNat = 3 ∨ (opField c.cmd).toNat = 5 ∨ (opField c.cmd).toNat = 6 ∨
        (((opField c.cmd).toNat = 1 ∨ (opField c.cmd).toNat = 2) ∧ vField c.cmd = 1)) ∧
      (lppField c.cmd ≠ 0 ∨ nrField c.cmd ≠ 0 ∨ idxField c.cmd ≠ 0))) ∧
  (∀ (w : BitVec 16) (r₁ r₂ : OpRow), r₁ ∈ opcodeMap → r₂ ∈ opcodeMap →
    rowMatches w r₁ = true → rowMatches w r₂ = true → r₁ = r₂) ∧
  (∀ (c : Command) (r : OpRow), r ∈ opcodeMap → rowMatches c.cmd r = true → decode c = .ok (buildInstr r.name c))

/-- One word of every row, as the command rules and 95_test_vectors write it, decodes to its command (R54). -/
def Obligations.SpecWordsDecode : Prop :=
  decodeTableWord 16 0x14C0 = some (.fNew 4 12) ∧
  decodeTableWord 16 0x22C0 = some (.fLoad 2 12 InBuf.empty) ∧
  decodeTableWord 16 0x3000 = some (.fAbsorb InBuf.empty) ∧
  decodeTableWord 16 0x400B = some (.fRound 11) ∧
  decodeTableWord 16 0x5000 = some .fPermute ∧
  decodeTableWord 16 0x6000 = some .fDigest ∧
  decodeTableWord 16 0x7001 = some (.fGetplane 1) ∧
  decodeTableWord 16 0x1800 = some .nInit ∧
  decodeTableWord 16 0x2800 = some (.nLoad InBuf.empty) ∧
  decodeTableWord 16 0x3800 = some (.nAbsorb InBuf.empty) ∧
  decodeTableWord 16 0x480B = some (.nRound 11) ∧
  decodeTableWord 16 0x5800 = some .nPermute ∧
  decodeTableWord 16 0x6800 = some .nDigest ∧
  decodeTableWord 16 0x0000 = none ∧ decodeTableWord 16 0x7801 = none ∧ decodeTableWord 16 0x5010 = none

/-- The assembler: an omitted `lpp` is 4; operands that fit their fields pass, legal or not, and others are refused; a
data line names its command with the operands of the line and a buffer that holds the bytes of the line, byte for byte
up to 48 of them and the first 48 of 49 to 63, the length in `din_len`; a longer line is refused; a bare line names its
command and `RESET` the reset; a line is offered exactly when it names a command, and the offered word decodes to that
command (R7, R56). -/
def Obligations.ScriptLinesAssemble : Prop :=
  (∀ nr hex, lineInstr (.fNew nr none) = lineInstr (.fNew nr (some 4)) ∧
    lineInstr (.fLoad nr none hex) = lineInstr (.fLoad nr (some 4) hex)) ∧
  (∀ nr lpp, nr ≤ 15 → lpp ≤ 7 →
    ∃ l n, lineInstr (.fNew nr (some lpp)) = some (.fNew l n) ∧ l.toNat = lpp ∧ n.toNat = nr) ∧
  (∀ nr lpp hex, 15 < nr ∨ 7 < lpp →
    assembleLine (.fNew nr (some lpp)) = none ∧ assembleLine (.fLoad nr (some lpp) hex) = none) ∧
  (∀ i, i ≤ 15 → ∃ f : BitVec 4, f.toNat = i ∧ lineInstr (.fRound i) = some (.fRound f) ∧
    lineInstr (.nRound i) = some (.nRound f) ∧ lineInstr (.fGetplane i) = some (.fGetplane f)) ∧
  (∀ i, 15 < i → assembleLine (.fRound i) = none ∧ assembleLine (.nRound i) = none ∧
    assembleLine (.fGetplane i) = none) ∧
  (∀ hex, (hexBytes hex).length ≤ 63 →
    ∃ b : InBuf, b.dinLen.toNat = (hexBytes hex).length ∧
      ((hexBytes hex).length ≤ 48 → dinBytes b = hexBytes hex) ∧
      (48 < (hexBytes hex).length → ∀ k, k < 48 → b.din.extractLsb' (8 * k) 8 = (hexBytes hex).getD k 0) ∧
      lineInstr (.fAbsorb hex) = some (.fAbsorb b) ∧ lineInstr (.nLoad hex) = some (.nLoad b) ∧
      lineInstr (.nAbsorb hex) = some (.nAbsorb b) ∧
      ∀ nr lpp, nr ≤ 15 → lpp ≤ 7 →
        ∃ l n, lineInstr (.fLoad nr (some lpp) hex) = some (.fLoad l n b) ∧ l.toNat = lpp ∧ n.toNat = nr) ∧
  (∀ hex, 63 < (hexBytes hex).length →
    assembleLine (.fAbsorb hex) = none ∧ assembleLine (.nLoad hex) = none ∧ assembleLine (.nAbsorb hex) = none ∧
    ∀ nr lpp, assembleLine (.fLoad nr lpp hex) = none) ∧
  (lineInstr .fPermute = some .fPermute ∧ lineInstr .fDigest = some .fDigest ∧ lineInstr .nInit = some .nInit ∧
    lineInstr .nPermute = some .nPermute ∧ lineInstr .nDigest = some .nDigest ∧
    assembleLine .reset = some .reset) ∧
  (∀ (l : ScriptLine) (i : Instr), lineInstr l = some i →
    ∃ c, assembleLine l = some (.offer c) ∧ decode c = .ok i) ∧
  (∀ (l : ScriptLine) (c : Command), assembleLine l = some (.offer c) →
    ∃ i, lineInstr l = some i ∧ decode c = .ok i)

/-! ### The port and the two agents -/

/-- A step runs the decoded instruction: while `BUSY = 0` and `FAULT = 0` an offered command that decodes to `i` is
taken from the port, and the step is `exec i` (R45, R90). -/
def Obligations.AcceptedCommandRunsItsInstruction : Prop :=
  ∀ (s : State) (c : Command) (ms : List HostMove) (i : Instr),
    s.moves = .offer c :: ms → s.busy = false → s.fault = false → decode c = .ok i →
    step s = exec i (setMoves ms s)

/-- An offered word that matches no row raises `ILLEGAL_CMD` when it is accepted: `FAULT`, `CAUSE` and the
response, nothing else (R54, R90, R112). -/
def Obligations.IllegalWordRaisesIllegalCmd : Prop :=
  ∀ (s : State) (c : Command) (ms : List HostMove) (e : Illegal),
    s.moves = .offer c :: ms → s.busy = false → s.fault = false → decode c = .error e →
    step s = .next { s with
      moves := ms, fault := true, cause := .illegalCmd, rsps := s.rsps ++ [faultResponse .illegalCmd] }

/-- R106: every word with `OP = 7`, `V = 1` raises `ILLEGAL_CMD`, and no NC command sets a lane count or a round
count. -/
def Obligations.NcHasNoGetPlaneAndNoConfiguration : Prop :=
  (∀ (s : State) (c : Command) (ms : List HostMove),
    s.moves = .offer c :: ms → s.busy = false → s.fault = false →
    (opField c.cmd).toNat = 7 → vField c.cmd = 1 →
    step s = .next (faultEntry .illegalCmd (setMoves ms s))) ∧
  (∀ (i : Instr) (s t : State), isFull i = false → exec i s = .next t →
    fLpp t.toBlock = fLpp s.toBlock ∧ fNr t.toBlock = fNr s.toBlock)

/-- While `BUSY = 1` an offered command waits: the step is the engine step and the offer stays at the port; while
`BUSY = 0` and nothing is offered, the block holds all state (R83, R90, R121, R133). That every turn with `BUSY = 1` and
no reset is an engine step (clause 1) and that an idle move is a turn that is used up (clause 4) are the model's own
choice, no rule of the spec (DESIGN CHOICE: notes/assumptions/3.md). -/
def Obligations.BusyBlockHoldsTheOffer : Prop :=
  (∀ s : State, s.busy = true → HostWaits s → step s = engineStep s) ∧
  (∀ s t : State, engineStep s = .next t → t.moves = s.moves) ∧
  (∀ s : State, s.busy = false → s.moves = [] → step s = .next s) ∧
  (∀ (s : State) (ms : List HostMove), s.busy = false → s.moves = .idle :: ms → step s = .next (setMoves ms s))

/-- R83: the engine step. The lanes of the context `RV` names become one round of them at the index `RI`, `RI`
advances by 1, and `BUSY` falls with the response exactly when the new `RI` is `RE`; nothing else is written (clauses 1
and 2). That a turn with `BUSY = 1` in which the host waits is this step (clause 3) is the model's own choice, no rule
of the spec (DESIGN CHOICE: notes/assumptions/3.md); that one step is one round is one of the two readings R84 allows
(DESIGN CHOICE: notes/assumptions/12.md). -/
def Obligations.EngineStepDoesOneRound : Prop :=
  (∀ (s : State) (c : FullCtx) (h : s.ri.toNat < 12), s.rv = .F → s.full = some c →
    engineStep s = .next
      (if s.ri + 1 = s.re then
        { s with full := some { c with a := roundF c.a ⟨s.ri.toNat, h⟩ }, ri := s.ri + 1, busy := false,
                 rsps := s.rsps ++ [okResponse []] }
      else { s with full := some { c with a := roundF c.a ⟨s.ri.toNat, h⟩ }, ri := s.ri + 1 })) ∧
  (∀ (s : State) (w : NcCtx) (h : s.ri.toNat < 12), s.rv = .N → s.nc = some w →
    engineStep s = .next
      (if s.ri + 1 = s.re then
        { s with nc := some (roundN w ⟨s.ri.toNat, h⟩), ri := s.ri + 1, busy := false,
                 rsps := s.rsps ++ [okResponse []] }
      else { s with nc := some (roundN w ⟨s.ri.toNat, h⟩), ri := s.ri + 1 })) ∧
  (∀ s : State, s.busy = true → HostWaits s → step s = engineStep s)

/-- R114: while `FAULT = 1` no host step is enabled, the pins show the fault, and no step that is not a reset changes
the block or gives a response, however many there are and whatever the host offers; a reset leaves the fault, from
every state, and both contexts are gone. That an offer made meanwhile is given up is the model's own choice
(notes/assumptions/4.md); nothing here rests on it. -/
def Obligations.FaultHoldsUntilReset : Prop :=
  (∀ (k : Nat) (s : State), s.busy = false → s.fault = true → .reset ∉ s.moves →
    hostStepEnabled s.toBlock = false ∧ (∀ rst, pinCmdReady rst s.toBlock = false) ∧
    pinFault s.toBlock = true ∧
    pinCause s.toBlock = causeCode s.cause ∧ ∃ t, steps k s = .next t ∧ t.toBlock = s.toBlock ∧ t.rsps = s.rsps) ∧
  (∀ (s : State) (ms : List HostMove), s.moves = .reset :: ms →
    ∃ t, step s = .next t ∧ t.fault = false ∧ fValid t.toBlock = false ∧ nValid t.toBlock = false)

/-- A reset is taken in every state, `BUSY = 1` and `FAULT = 1` among them: the block takes its reset state, a
running command gets no response, and `cmd_ready` is 0 meanwhile (R23, R130, R131). -/
def Obligations.ResetIsTakenInEveryState : Prop :=
  ∀ (s : State) (ms : List HostMove), s.moves = .reset :: ms →
    pinCmdReady true s.toBlock = false ∧
    ∃ t, step s = .next t ∧ t.toBlock = Block.reset ∧ t.moves = ms ∧ t.rsps = s.rsps

/-- R23: what reset leaves. `F.LPP`, `F.NR`, the lanes and the words hold no value, the ROM is the table of R20,
and the engine is idle and accepts a command. -/
def Obligations.ResetStateIsAsSpecified : Prop :=
  fValid State.reset.toBlock = false ∧ nValid State.reset.toBlock = false ∧ State.reset.busy = false ∧
  State.reset.fault = false ∧ causeCode State.reset.cause = 0 ∧ State.reset.ri = 0 ∧ State.reset.re = 0 ∧
  variantBit State.reset.rv = 0 ∧ fLpp State.reset.toBlock = none ∧ fNr State.reset.toBlock = none ∧
  (∀ c, State.reset.full ≠ some c) ∧ (∀ w, State.reset.nc ≠ some w) ∧
  (∀ b : Block, blockTurn (some .reset) b = .next { block := State.reset.toBlock, rsp := none }) ∧
  romContents.toList = [0x58, 0x38, 0x3C0, 0xD0, 0x120, 0x14, 0x60, 0x2C, 0x380, 0xF0, 0x1A0, 0x12] ∧
  hostStepEnabled State.reset.toBlock = true ∧ pinCmdReady false State.reset.toBlock = true

/-- A word of the opcode table placed at the port runs as the next instruction of a state that accepts one (R45,
R54, R90). That a program is placed as an offer with an empty buffer at the head of the host's moves is the model's own
choice, no rule of the spec (DESIGN CHOICE: notes/assumptions/5.md). -/
def Obligations.PlacedWordRunsNext : Prop :=
  ∀ (s : State) (w : Nat) (i : Instr), s.busy = false → s.fault = false → decodeTableWord 16 w = some i →
    step (s.withFetchWord 16 w) = exec i s

/-! ### Invariants -/

/-- The four invariants of R19 hold right after reset. -/
def Obligations.ResetMeetsTheInvariants : Prop := ControllerInv State.reset

/-- From every state that meets the invariants of R19 the step answers a next state, and that state meets them: no
stop, no refusal, and no engine step can fault (R19, R111). -/
def Obligations.StepKeepsTheInvariants : Prop :=
  ∀ s : State, ControllerInv s → ∃ t, step s = .next t ∧ ControllerInv t

/-- R19: the invariants (a) to (d) hold in every state that a run from reset reaches, whatever the host does. The runs
are those of the model's turns (DESIGN CHOICE: notes/assumptions/3.md, notes/assumptions/4.md). -/
def Obligations.ReachableStatesMeetTheInvariants : Prop :=
  ∀ (ms : List HostMove) (k : Nat) (t : State), steps k (setMoves ms State.reset) = .next t →
    ¬(t.busy = true ∧ t.fault = true) ∧
    (t.busy = true → t.ri.toNat < t.re.toNat ∧ t.re.toNat ≤ 12 ∧ contextValid t.toBlock t.rv = true) ∧
    (∀ c, t.full = some c → 1 ≤ c.lpp.toNat ∧ c.lpp.toNat ≤ 4 ∧ c.nr.toNat ≤ 12) ∧
    (causeCode t.cause = 0 ↔ t.fault = false)

/-! ### What each command does: the Full context -/

/-- `F_NEW` with a legal `LPP` and `NR` completes: context F is constructed with them, every existing lane is zero,
no lane exists past `LPP`, and nothing else changes but the response (R91). -/
def Obligations.FNewConstructsTheZeroState : Prop :=
  ∀ (lpp : BitVec 3) (nr : BitVec 4) (s : State),
    1 ≤ lpp.toNat → lpp.toNat ≤ 4 → nr.toNat ≤ 12 →
    ∃ c : FullCtx, exec (.fNew lpp nr) s = .next { s with full := some c, rsps := s.rsps ++ [okResponse []] } ∧
      c.lpp = lpp ∧ c.nr = nr ∧
      (∀ (y : Fin 3) (x : Nat), x < lpp.toNat → fullLane c y x = some 0) ∧
      (∀ (y : Fin 3) (x : Nat), lpp.toNat ≤ x → fullLane c y x = none)

/-- `F_LOAD` with a legal `LPP` and `NR` and a buffer that fits completes: lane `A[y][x]` is
`MemRead(4*(LPP*y + x), 4)`, and nothing else changes but the response (R36, R92). -/
def Obligations.FLoadConstructsTheStateOfTheBytes : Prop :=
  ∀ (lpp : BitVec 3) (nr : BitVec 4) (buf : InBuf) (s : State),
    1 ≤ lpp.toNat → lpp.toNat ≤ 4 → nr.toNat ≤ 12 → buf.dinLen.toNat ≤ 12 * lpp.toNat →
    ∃ c : FullCtx, exec (.fLoad lpp nr buf) s = .next { s with full := some c, rsps := s.rsps ++ [okResponse []] } ∧
      c.lpp = lpp ∧ c.nr = nr ∧
      (∀ (y : Fin 3) (x : Nat), x < lpp.toNat →
        fullLane c y x = some (memRead buf (4 * (lpp.toNat * y.val + x)))) ∧
      (∀ (y : Fin 3) (x : Nat), lpp.toNat ≤ x → fullLane c y x = none)

/-- `F_ABSORB` on a constructed context with a buffer that fits completes: lane `A[y][x]` is XORed with
`MemRead(4*(L*y + x), 4)`, `F.LPP` and `F.NR` stay, and nothing else changes but the response (R93). -/
def Obligations.FAbsorbXorsTheBytes : Prop :=
  ∀ (buf : InBuf) (s : State) (c : FullCtx),
    s.full = some c → buf.dinLen.toNat ≤ 12 * c.lpp.toNat →
    ∃ d : FullCtx, exec (.fAbsorb buf) s = .next { s with full := some d, rsps := s.rsps ++ [okResponse []] } ∧
      d.lpp = c.lpp ∧ d.nr = c.nr ∧
      (∀ (y : Fin 3) (x : Nat) (v : Lane), fullLane c y x = some v →
        fullLane d y x = some (v ^^^ memRead buf (4 * (c.lpp.toNat * y.val + x)))) ∧
      (∀ (y : Fin 3) (x : Nat), c.lpp.toNat ≤ x → fullLane d y x = none)

/-- `F_ROUND i` with `i` in 0..11 on a constructed context is accepted: `RV`, `RI`, `RE` and `BUSY` are written,
whatever `F.NR` is, and nothing else; the response is left to the engine (R94). -/
def Obligations.FRoundStartsOneRound : Prop :=
  ∀ (i : BitVec 4) (s : State) (c : FullCtx), s.full = some c → i.toNat ≤ 11 →
    exec (.fRound i) s = .next { s with rv := .F, ri := i, re := i + 1, busy := true }

/-- `F_PERMUTE` on a constructed context is accepted: `RI <- 12 - F.NR`, `RE <- 12`; with `F.NR = 0` it responds at
once and `BUSY` stays as it is, else `BUSY <- 1`; nothing else is written (R95). -/
def Obligations.FPermuteStartsAtTwelveMinusNr : Prop :=
  ∀ (s : State) (c : FullCtx), s.full = some c →
    (c.nr = 0 → exec .fPermute s =
      .next { s with rv := .F, ri := 12, re := 12, rsps := s.rsps ++ [okResponse []] }) ∧
    (c.nr ≠ 0 → exec .fPermute s = .next { s with rv := .F, ri := 12 - c.nr, re := 12, busy := true }) ∧
    (c.nr.toNat ≤ 12 → (12 - c.nr).toNat = 12 - c.nr.toNat)

/-- `F_DIGEST` on a constructed context responds with plane 0, then 1, then 2, each serialised, and changes no
state of the block (R39, R96). -/
def Obligations.FDigestSerialisesTheState : Prop :=
  ∀ (s : State) (c : FullCtx), s.full = some c →
    exec .fDigest s = .next { s with
      rsps := s.rsps ++ [okResponse (planeSerialize c.a.a0 ++ planeSerialize c.a.a1 ++ planeSerialize c.a.a2)] } ∧
    (planeSerialize c.a.a0 ++ planeSerialize c.a.a1 ++ planeSerialize c.a.a2).length = 12 * c.lpp.toNat

/-- `F_GETPLANE p` with `p` in 0..2 on a constructed context responds with plane `p` serialised, and changes no
state of the block; the three planes make the digest (R39, R97). -/
def Obligations.FGetplaneSerialisesOnePlane : Prop :=
  ∀ (p : BitVec 4) (s : State) (c : FullCtx) (h : p.toNat < 3), s.full = some c →
    exec (.fGetplane p) s = .next { s with
      rsps := s.rsps ++ [okResponse (planeSerialize (cubePlane c.a ⟨p.toNat, h⟩))] } ∧
    (planeSerialize (cubePlane c.a ⟨p.toNat, h⟩)).length = 4 * c.lpp.toNat ∧
    digestBytes c.a = planeBytes (cubePlane c.a 0) ++ planeBytes (cubePlane c.a 1) ++ planeBytes (cubePlane c.a 2)

/-! ### What each command does: the NC context -/

/-- `N_INIT` always completes: the three words are zero, context N is valid, nothing else changes but the response
(R100). -/
def Obligations.NInitConstructsTheZeroWords : Prop :=
  ∀ s : State, ∃ w : NcCtx,
    exec .nInit s = .next { s with nc := some w, rsps := s.rsps ++ [okResponse []] } ∧ ∀ y, ncWord w y = 0

/-- `N_LOAD` with at most 12 bytes completes: `W[y]` is `MemRead(4*y, 4)` (R37, R101). -/
def Obligations.NLoadConstructsTheWordsOfTheBytes : Prop :=
  ∀ (buf : InBuf) (s : State), buf.dinLen.toNat ≤ 12 →
    ∃ w : NcCtx, exec (.nLoad buf) s = .next { s with nc := some w, rsps := s.rsps ++ [okResponse []] } ∧
      ∀ y : Fin 3, ncWord w y = memRead buf (4 * y.val)

/-- `N_ABSORB` on a constructed context with at most 12 bytes completes: `W[y]` is XORed with `MemRead(4*y, 4)`
(R102). -/
def Obligations.NAbsorbXorsTheBytes : Prop :=
  ∀ (buf : InBuf) (s : State) (w : NcCtx), s.nc = some w → buf.dinLen.toNat ≤ 12 →
    ∃ v : NcCtx, exec (.nAbsorb buf) s = .next { s with nc := some v, rsps := s.rsps ++ [okResponse []] } ∧
      ∀ y : Fin 3, ncWord v y = ncWord w y ^^^ memRead buf (4 * y.val)

/-- `N_ROUND i` with `i` in 0..11 on a constructed context is accepted: `RV`, `RI`, `RE` and `BUSY` are written,
nothing else (R103). -/
def Obligations.NRoundStartsOneRound : Prop :=
  ∀ (i : BitVec 4) (s : State) (w : NcCtx), s.nc = some w → i.toNat ≤ 11 →
    exec (.nRound i) s = .next { s with rv := .N, ri := i, re := i + 1, busy := true }

/-- `N_PERMUTE` on a constructed context is accepted: rounds 0 to 2 are started, whatever context F holds (R104). -/
def Obligations.NPermuteStartsAtZero : Prop :=
  ∀ (s : State) (w : NcCtx), s.nc = some w →
    exec .nPermute s = .next { s with rv := .N, ri := 0, re := 3, busy := true }

/-- `N_DIGEST` on a constructed context responds with the little-endian bytes of the three words, 12 of them, and
changes no state of the block (R39, R105). -/
def Obligations.NDigestSerialisesTheWords : Prop :=
  ∀ (s : State) (w : NcCtx), s.nc = some w →
    exec .nDigest s = .next { s with
      rsps := s.rsps ++ [okResponse (laneBytes w.w0 ++ laneBytes w.w1 ++ laneBytes w.w2)] } ∧
    (laneBytes w.w0 ++ laneBytes w.w1 ++ laneBytes w.w2).length = 12

/-! ### Faults -/

/-- When each Full command faults and with which cause, the first failing check of R113 winning (R91 to R97, R110,
R113). -/
def Obligations.FullCommandFaults : Prop :=
  ∀ (s : State) (lpp : BitVec 3) (nr i : BitVec 4) (buf : InBuf),
    (¬LegalLanes lpp → exec (.fNew lpp nr) s = .next (faultEntry .badLanes s) ∧
      exec (.fLoad lpp nr buf) s = .next (faultEntry .badLanes s)) ∧
    (LegalLanes lpp → ¬LegalRounds nr → exec (.fNew lpp nr) s = .next (faultEntry .badRounds s) ∧
      exec (.fLoad lpp nr buf) s = .next (faultEntry .badRounds s)) ∧
    (LegalLanes lpp → LegalRounds nr → 12 * lpp.toNat < buf.dinLen.toNat →
      exec (.fLoad lpp nr buf) s = .next (faultEntry .oversize s)) ∧
    (s.full = none →
      exec (.fAbsorb buf) s = .next (faultEntry .noContext s) ∧
      exec (.fRound i) s = .next (faultEntry .noContext s) ∧
      exec .fPermute s = .next (faultEntry .noContext s) ∧
      exec .fDigest s = .next (faultEntry .noContext s) ∧
      exec (.fGetplane i) s = .next (faultEntry .noContext s)) ∧
    (∀ c, s.full = some c →
      (12 * c.lpp.toNat < buf.dinLen.toNat → exec (.fAbsorb buf) s = .next (faultEntry .oversize s)) ∧
      (11 < i.toNat → exec (.fRound i) s = .next (faultEntry .badRoundIndex s)) ∧
      (2 < i.toNat → exec (.fGetplane i) s = .next (faultEntry .badPlaneIndex s)))

/-- When each NC command faults and with which cause, the first failing check of R113 winning (R101 to R105, R110,
R113). -/
def Obligations.NcCommandFaults : Prop :=
  ∀ (s : State) (i : BitVec 4) (buf : InBuf),
    (12 < buf.dinLen.toNat → exec (.nLoad buf) s = .next (faultEntry .oversize s)) ∧
    (s.nc = none →
      exec (.nAbsorb buf) s = .next (faultEntry .noContext s) ∧
      exec (.nRound i) s = .next (faultEntry .noContext s) ∧
      exec .nPermute s = .next (faultEntry .noContext s) ∧
      exec .nDigest s = .next (faultEntry .noContext s)) ∧
    (∀ w, s.nc = some w →
      (12 < buf.dinLen.toNat → exec (.nAbsorb buf) s = .next (faultEntry .oversize s)) ∧
      (11 < i.toNat → exec (.nRound i) s = .next (faultEntry .badRoundIndex s)))

/-- R112: an accepted command either faults, and then `FAULT`, `CAUSE` and the response are all that is written, or
it leaves `FAULT` and `CAUSE` alone and its response, if it comes at once, is no fault. -/
def Obligations.FaultEntryWritesNothingElse : Prop :=
  ∀ (c : Command) (s t : State), acceptCommand c s = .next t →
    (∃ k, k ≠ .none ∧
      t = { s with fault := true, cause := k, rsps := s.rsps ++ [{ fault := true, cause := k, dout := [] }] }) ∨
    (t.fault = s.fault ∧ t.cause = s.cause ∧ (t.rsps = s.rsps ∨ ∃ d, t.rsps = s.rsps ++ [okResponse d]))

/-- A decoded command raises no cause but those the table of R110 lists for it; `N_INIT` raises none (R110, R111). -/
def Obligations.OnlyListedCausesArise : Prop :=
  ∀ (i : Instr) (s : State) (k : Cause), exec i s = .next (faultEntry k s) → mayRaise i k = true

/-- A command with an illegal operand always faults, in every state whose Full configuration is legal (R38, R50,
R51, R52, R110). -/
def Obligations.IllFormedCommandsFault : Prop :=
  ∀ (i : Instr) (s : State), FullConfigLegal s → i.wellFormed = false →
    ∃ k, k ≠ .none ∧ exec i s = .next (faultEntry k s)

/-- A command with legal operands, on a context that exists or that it creates, does not fault: no data value ever
faults (R111). The bound on `F_ABSORB` is the current `F.LPP`. -/
def Obligations.WellFormedCommandsDoNotFault : Prop :=
  ∀ (i : Instr) (s : State), i.wellFormed = true → addressed i s = true →
    (∀ buf c, i = .fAbsorb buf → s.full = some c → buf.dinLen.toNat ≤ 12 * c.lpp.toNat) →
    ∃ t, exec i s = .next t ∧ t.fault = s.fault ∧ t.cause = s.cause

/-! ### Frames and isolation -/

/-- What no command but those of its column of R24 writes: context F, context N, and the controller's `BUSY`, `RI`,
`RE`, `RV`; no command touches the host's remaining moves; responses are only added (R24). -/
def Obligations.CommandFrames : Prop :=
  ∀ (i : Instr) (s t : State), exec i s = .next t →
    (writesFull i = false → t.full = s.full) ∧
    (writesNc i = false → t.nc = s.nc) ∧
    (startsRounds i = false → t.busy = s.busy ∧ t.ri = s.ri ∧ t.re = s.re ∧ t.rv = s.rv) ∧
    t.moves = s.moves ∧ ∃ rs, t.rsps = s.rsps ++ rs

/-- `F.LPP` and `F.NR` of a constructed context change only by an accepted `F_NEW` or `F_LOAD` and by reset, in any
step of the machine (R7, R14). -/
def Obligations.ConfigurationChangesOnlyByConstruction : Prop :=
  ∀ (s t : State) (c : FullCtx), s.full = some c → step s = .next t →
    (∀ ms, s.moves ≠ .reset :: ms) →
    (∀ cmd ms lpp nr buf, s.moves = .offer cmd :: ms →
      decode cmd ≠ .ok (.fNew lpp nr) ∧ decode cmd ≠ .ok (.fLoad lpp nr buf)) →
    ∃ d, t.full = some d ∧ d.lpp = c.lpp ∧ d.nr = c.nr

/-- Independence of the two contexts, over runs (R107). While the host offers only commands of one context, replacing
the other context by any other value changes nothing in the run but that value (clauses 1 and 2). For any interleaving
of F and N commands, without a fault and without a reset, the responses that the commands of one context get are those
of the run of these commands alone, and that context is left as that run leaves it (clause 3). The runs are those of the
model's turns (DESIGN CHOICE: notes/assumptions/3.md, notes/assumptions/4.md). -/
def Obligations.ContextsDoNotInterfere : Prop :=
  (∀ (k : Nat) (s : State) (f : Option FullCtx), (s.busy = true → s.rv = .N) → .reset ∉ s.moves →
    (∀ c, .offer c ∈ s.moves → ∀ i, decode c = .ok i → isFull i = false) →
    steps k (replaceFull f s) = mapNext (replaceFull f) (steps k s)) ∧
  (∀ (k : Nat) (s : State) (w : Option NcCtx), (s.busy = true → s.rv = .F) → .reset ∉ s.moves →
    (∀ c, .offer c ∈ s.moves → ∀ i, decode c = .ok i → isFull i = true) →
    steps k (replaceNc w s) = mapNext (replaceNc w) (steps k s)) ∧
  (∀ (v : Variant) (k : Nat) (s t : State), UndisturbedRun k s t →
    ∃ (m : Nat) (u : State), UndisturbedRun m (onlyCommandsOf v s) u ∧ u.rsps = s.rsps ++ responsesOf v k s ∧
      (v = .F → u.full = t.full) ∧ (v = .N → u.nc = t.nc))

/-! ### Running the rounds -/

/-- `F_PERMUTE` and the `F.NR` engine steps it causes: the lanes become the last `F.NR` rounds of the schedule
applied in ascending order, `BUSY` is 0 again, and one response is given (R83, R95, R140). That these are `F.NR` turns
rests on the model's own choices: every busy turn is an engine step (DESIGN CHOICE: notes/assumptions/3.md) and one
engine step is one round, of the two readings R84 allows (DESIGN CHOICE: notes/assumptions/12.md). -/
def Obligations.FPermuteRunsTheLastRounds : Prop :=
  ∀ (s : State) (c : FullCtx), s.full = some c → c.nr.toNat ≤ 12 → s.busy = false → HostWaits s →
    ∃ t, exec .fPermute s = .next t ∧
      steps c.nr.toNat t = .next { s with
        full := some { c with a := permuteF c.a c.nr.toNat }, rv := .F, ri := 12, re := 12,
        rsps := s.rsps ++ [okResponse []] }

/-- The rounds of `PermuteF(S, NR)` are those with the indices `12 - NR .. 11`, in ascending order; with `NR = 0`
it is the identity (R95, R137). -/
def Obligations.PermuteIsAnchoredAtTheTail : Prop :=
  ∀ (n : Nat) (s : Cube n),
    permuteF s 0 = s ∧
    (∀ (k : Nat) (h : k < 12), permuteF s (k + 1) = permuteF (roundF s ⟨11 - k, by omega⟩) k)

/-- `N_PERMUTE` and the three engine steps it causes: the words become rounds 0, 1, 2 applied in that order, `BUSY`
is 0 again, and one response is given (R83, R104, R140). That three turns run the three rounds rests on the model's own
choices: every busy turn is an engine step (DESIGN CHOICE: notes/assumptions/3.md) and one engine step is one round, of
the two readings R84 allows (DESIGN CHOICE: notes/assumptions/12.md). -/
def Obligations.NPermuteRunsTheFirstRounds : Prop :=
  ∀ (s : State) (w : NcCtx), s.nc = some w → s.busy = false → HostWaits s →
    ∃ t, exec .nPermute s = .next t ∧
      steps 3 t = .next { s with
        nc := some (roundN (roundN (roundN w 0) 1) 2), rv := .N, ri := 3, re := 3,
        rsps := s.rsps ++ [okResponse []] }

/-- `F_ROUND i` and `N_ROUND i` and the one engine step each causes: the lanes become one round at the index `i`
(R83, R94, R103, R140). That the next turn is that engine step and runs a whole round rests on the model's own choices:
every busy turn is an engine step (DESIGN CHOICE: notes/assumptions/3.md) and one engine step is one round, of the two
readings R84 allows (DESIGN CHOICE: notes/assumptions/12.md). -/
def Obligations.SingleRoundCommandsRunOneRound : Prop :=
  (∀ (i : BitVec 4) (h : i.toNat < 12) (s : State) (c : FullCtx), s.full = some c → s.busy = false → HostWaits s →
    ∃ t, exec (.fRound i) s = .next t ∧
      steps 1 t = .next { s with
        full := some { c with a := roundF c.a ⟨i.toNat, h⟩ }, rv := .F, ri := i + 1, re := i + 1,
        rsps := s.rsps ++ [okResponse []] }) ∧
  (∀ (i : BitVec 4) (h : i.toNat < 12) (s : State) (w : NcCtx), s.nc = some w → s.busy = false → HostWaits s →
    ∃ t, exec (.nRound i) s = .next t ∧
      steps 1 t = .next { s with
        nc := some (roundN w ⟨i.toNat, h⟩), rv := .N, ri := i + 1, re := i + 1,
        rsps := s.rsps ++ [okResponse []] })

/-- While `BUSY = 1` and the host waits, `BUSY` falls after exactly `RE - RI` steps and not before, and the one
response of the command is given then (R83, R140). The number of turns rests on the model's own choices, no rule of the
spec: every busy turn is an engine step (DESIGN CHOICE: notes/assumptions/3.md) and one engine step is one round, of the
two readings R84 allows (DESIGN CHOICE: notes/assumptions/12.md). -/
def Obligations.BusyFallsAfterTheRemainingRounds : Prop :=
  ∀ s : State, ControllerInv s → s.busy = true → HostWaits s →
    (∃ t, steps (s.re.toNat - s.ri.toNat) s = .next t ∧ t.busy = false ∧ t.rsps = s.rsps ++ [okResponse []]) ∧
    (∀ k, k < s.re.toNat - s.ri.toNat → ∃ t, steps k s = .next t ∧ t.busy = true ∧ t.rsps = s.rsps)

/-- Every run comes to an end (R140, R141): from any state that meets the invariants the host's finitely many moves are
used up and the rounds stop. By then every command accepted in the run, and the one that was running at its start, has
had its response, but for those whose rounds a reset abandoned (R131), one for each such reset. The run has ended well
or badly unless a reset abandoned a command in it, and always where no reset is among the moves. That the moves are used
up rests on the model's own choices, no rule of the spec: an idle move is a turn that is used up (DESIGN CHOICE:
notes/assumptions/3.md), and the host gives up an offer made while `FAULT = 1` (DESIGN CHOICE: notes/assumptions/4.md,
unsafe for a host that keeps its offer). -/
def Obligations.EveryRunEnds : Prop :=
  ∀ s : State, ControllerInv s → ∃ (k : Nat) (t : State),
    steps k s = .next t ∧ t.moves = [] ∧ t.busy = false ∧
    t.rsps.length + countTurns abandonsNow k s = s.rsps.length + commandsOf k s ∧
    (EndedWell k s t ∨ EndedBadly k s t ∨ 0 < countTurns abandonsNow k s) ∧
    (.reset ∉ s.moves → EndedWell k s t ∨ EndedBadly k s t)

/-- Every accepted command has exactly one response: at once, with `BUSY = 0`, or when the engine step clears
`BUSY`, and no other step gives one (R58). What the block does in a turn is a function of the block and of what the host
drives in that turn alone, and the response of the turn is its output: neither an earlier response nor a later move is
read, in a turn or by a command (R11, R21). Which move a turn looks at, and that the run keeps the responses in a list, are the model's own
choices (DESIGN CHOICE: notes/assumptions/2.md, notes/assumptions/3.md). -/
def Obligations.EveryCommandGetsOneResponse : Prop :=
  (∀ (s t : State) (c : Command) (ms : List HostMove),
    s.moves = .offer c :: ms → s.busy = false → s.fault = false → step s = .next t →
    (t.busy = false ∧ ∃ r, t.rsps = s.rsps ++ [r]) ∨ (t.busy = true ∧ t.rsps = s.rsps)) ∧
  (∀ s t : State, s.busy = true → (∀ ms, s.moves ≠ .reset :: ms) → step s = .next t →
    (t.busy = false ∧ t.rsps = s.rsps ++ [okResponse []]) ∨ (t.busy = true ∧ t.rsps = s.rsps)) ∧
  (∀ s t : State, s.busy = false → (s.fault = true ∨ ∀ c ms, s.moves ≠ .offer c :: ms) → step s = .next t →
    t.rsps = s.rsps) ∧
  (∀ s t : State, step s = .next t →
    ∃ o, blockTurn s.moves.head? s.toBlock = .next o ∧ t.toBlock = o.block ∧ t.rsps = s.rsps ++ o.rsp.toList) ∧
  (∀ (i : Instr) (s t : State), exec i s = .next t →
    ∃ o, blockExec i s.toBlock = .next o ∧ t.toBlock = o.block ∧ t.rsps = s.rsps ++ o.rsp.toList)

/-! ### The datapath -/

/-- R60: bit `k` of `rotl32(v, z)` is bit `emod(k - r, 32)` of `v` with `r = emod(z, 32)`; a rotation by a multiple
of 32 is none; rotating back restores the lane; zero and all ones are fixed. -/
def Obligations.RotationMovesEachBit : Prop :=
  (∀ (v : Lane) (z : Int) (k : Nat), k < 32 →
    (rotl32 v z).getLsbD k = v.getLsbD (((k : Int) - z % 32) % 32).toNat) ∧
  (∀ (v : Lane) (z : Int), z % 32 = 0 → rotl32 v z = v) ∧
  (∀ (v : Lane) (z : Int), rotl32 (rotl32 v z) (-z) = v) ∧
  (∀ (v : Lane), rotl32 v (-1) = rotl32 v 31) ∧
  (∀ z : Int, rotl32 0 z = 0 ∧ rotl32 0xFFFFFFFF z = 0xFFFFFFFF)

/-- R61 to R65: the plane operators act lane by lane, with the corner cases the rules name. -/
def Obligations.PlaneOperatorsActLaneByLane : Prop :=
  ∀ (n : Nat) (p q : Plane n),
    (∀ i : Fin n, (planeZero n)[i] = 0 ∧ (planeXor p q)[i] = p[i] ^^^ q[i] ∧ (planeAnd p q)[i] = p[i] &&& q[i] ∧
      (planeNot p)[i] = p[i] ^^^ 0xFFFFFFFF ∧
      ∀ (k : Fin n) (v : Lane), (planeXorWord p k v)[i] = if i = k then p[i] ^^^ v else p[i]) ∧
    planeXor p p = planeZero n ∧ planeXor p (planeZero n) = p ∧ planeXor (planeXor p q) q = p ∧
    planeAnd p (planeZero n) = planeZero n ∧ planeAnd p p = p ∧ planeNot (planeNot p) = p

/-- R66: the lane at position `s` moves to position `emod(s + x, n)` and its bits rotate left by `z`; with one lane
only the bits rotate; only `emod(x, n)` and `emod(z, 32)` matter; a shift by `(0, 0)` is none; the lane rotation and
the bit rotation commute. -/
def Obligations.PlaneShiftMovesLanes : Prop :=
  ∀ (n : Nat) (p : Plane n) (x z : Int),
    (∀ (i : Fin n) (j : Fin n), (j.val : Int) = ((i.val : Int) - x) % n → (planeShift p x z)[i] = rotl32 p[j] z) ∧
    (∀ (a : Fin n) (b : Fin n), (b.val : Int) = ((a.val : Int) + x) % n → (planeShift p x z)[b] = rotl32 p[a] z) ∧
    (∀ v : Lane, planeShift #v[v] x z = #v[rotl32 v z]) ∧
    (∀ k m : Int, planeShift p (x + k * n) (z + m * 32) = planeShift p x z) ∧ planeShift p 0 0 = p ∧
    planeShift (planeShift p x 0) 0 z = planeShift p x z ∧ planeShift (planeShift p 0 z) x 0 = planeShift p x z

/-- R67: the laws of `PlaneShift`. -/
def Obligations.PlaneShiftLaws : Prop :=
  ∀ (n : Nat) (p q : Plane n) (x z x' z' : Int),
    planeShift (planeShift p x z) (-x) (-z) = p ∧
    planeShift (planeShift p x z) x' z' = planeShift p (x + x') (z + z') ∧
    planeShift (planeXor p q) x z = planeXor (planeShift p x z) (planeShift q x z) ∧
    planeShift (planeAnd p q) x z = planeAnd (planeShift p x z) (planeShift q x z) ∧
    planeShift (planeNot p) x z = planeNot (planeShift p x z)

/-- R82: the whole round lane by lane. `m1` and `m2` are the source positions `emod(x - 1, n)`, `emod(x - 2, n)`. -/
def Obligations.RoundLaneByLane : Prop :=
  ∀ (n : Nat) (s : Cube n) (i : Fin 12) (m1 m2 : Fin n → Fin n),
    (∀ x, ((m1 x).val : Int) = ((x.val : Int) - 1) % n) → (∀ x, ((m2 x).val : Int) = ((x.val : Int) - 2) % n) →
    let P := fun x : Fin n => s.a0[x] ^^^ s.a1[x] ^^^ s.a2[x]
    let E := fun x : Fin n => rotl32 (P (m1 x)) 5 ^^^ rotl32 (P (m1 x)) 14
    let U0 := fun x : Fin n => (s.a0[x] ^^^ E x) ^^^ (if x.val = 0 then romRead i else 0)
    let U1 := fun x : Fin n => s.a1[m1 x] ^^^ E (m1 x)
    let U2 := fun x : Fin n => rotl32 (s.a2[x] ^^^ E x) 11
    let V0 := fun x : Fin n => U0 x ^^^ (~~~(U1 x) &&& U2 x)
    let V1 := fun x : Fin n => U1 x ^^^ (~~~(U2 x) &&& U0 x)
    let V2 := fun x : Fin n => U2 x ^^^ (~~~(U0 x) &&& U1 x)
    ∀ x : Fin n, (roundF s i).a0[x] = V0 x ∧ (roundF s i).a1[x] = rotl32 (V1 x) 1 ∧
      (roundF s i).a2[x] = rotl32 (V2 (m2 x)) 8

/-- Theta is linear over XOR, and the parity plane after it is `P ^ E` (R74). -/
def Obligations.ThetaIsLinear : Prop :=
  ∀ (n : Nat) (s t : Cube n),
    theta (cubeXor s t) = cubeXor (theta s) (theta t) ∧
    thetaParity (theta s) = planeXor (thetaParity s) (thetaEffect s) ∧
    (thetaParity s = planeZero n → theta s = s)

/-- R77: chi on every bit column by the table of the rule, and chi is its own inverse. -/
def Obligations.ChiTableAndInvolution : Prop :=
  ∀ (n : Nat) (s : Cube n),
    chi (chi s) = s ∧
    ∀ (x : Fin n) (b : Nat), b < 32 →
      ((chi s).a0[x].getLsbD b, (chi s).a1[x].getLsbD b, (chi s).a2[x].getLsbD b) =
      match s.a0[x].getLsbD b, s.a1[x].getLsbD b, s.a2[x].getLsbD b with
      | false, false, false => (false, false, false)
      | true, false, false => (true, true, false)
      | false, true, false => (false, true, true)
      | false, false, true => (true, false, true)
      | true, true, false => (true, false, false)
      | false, true, true => (false, true, false)
      | true, false, true => (false, false, true)
      | true, true, true => (true, true, true)

/-- R81: the NC round is the Full round at one lane per plane, bit for bit. -/
def Obligations.NcRoundIsTheFullRoundAtOneLane : Prop :=
  ∀ (w : NcCtx) (i : Fin 12), ncCube (roundN w i) = roundF (ncCube w) i

/-! ### The byte interface -/

/-- R32: byte `j` of `MemRead(k, 4)` is `DinByte(k + j)`, which is byte `k + j` of `din` below `din_len` and 0 at
and past it: a full group gives all four bytes, a group cut by `din_len` has zeros in its high bytes, and a group
wholly past it is zero. -/
def Obligations.MemReadIsLittleEndian : Prop :=
  ∀ (buf : InBuf) (k : Nat),
    (∀ j, j < 4 → laneByte (memRead buf k) j =
      if k + j < buf.dinLen.toNat then buf.din.extractLsb' (8 * (k + j)) 8 else 0) ∧
    (buf.dinLen.toNat ≤ k → memRead buf k = 0)

/-- The bits of `din` at byte positions at and past `din_len` make no difference to any data-taking command, and the
whole buffer makes none to a command that takes no data (R31). -/
def Obligations.UnsuppliedBytesAreIgnored : Prop :=
  (∀ (c d : Command) (i : Instr), c.cmd = d.cmd → decode c = .ok i → takesData i = false → decode d = .ok i) ∧
  ∀ (b d : InBuf), b.dinLen = d.dinLen →
    (∀ k, k < b.dinLen.toNat → b.din.extractLsb' (8 * k) 8 = d.din.extractLsb' (8 * k) 8) →
    ∀ (s : State) (lpp : BitVec 3) (nr : BitVec 4),
      exec (.fLoad lpp nr b) s = exec (.fLoad lpp nr d) s ∧ exec (.fAbsorb b) s = exec (.fAbsorb d) s ∧
      exec (.nLoad b) s = exec (.nLoad d) s ∧ exec (.nAbsorb b) s = exec (.nAbsorb d) s

/-- `PlaneFromBytes` of byte range `y` of the input buffer has the lanes `MemRead(4*(n*y + i), 4)`; serialising a
plane built from bytes gives them back, zero-padded (R36, R68, R69). -/
def Obligations.PlaneBytesRoundTrip : Prop :=
  (∀ (buf : InBuf) (n y : Nat),
    planeFromBytes (((dinBytes buf).drop (4 * n * y)).take (4 * n)) n = bufPlane buf n y) ∧
  (∀ (n : Nat) (b : List Byte), b.length ≤ 4 * n →
    planeSerialize (planeFromBytes b n) = b ++ List.replicate (4 * n - b.length) 0)

/-- The address map of R36 on the output side: byte `j` of lane `A[y][x]` is output byte `4*(L*y + x) + j` of the
digest (R33, R36, R96). -/
def Obligations.DigestByteMap : Prop :=
  ∀ (c : FullCtx) (y : Fin 3) (x j : Nat) (v : Lane), fullLane c y x = some v → j < 4 →
    (digestBytes c.a)[4 * (c.lpp.toNat * y.val + x) + j]? = some (laneByte v j)

/-- R44: (a) load then digest returns the buffer zero-padded to the width, for Full and NC; (b) two equal absorbs
in a row leave every lane unchanged, for Full and NC. -/
def Obligations.ByteInterfaceLaws : Prop :=
  (∀ (s : State) (lpp : BitVec 3) (nr : BitVec 4) (buf : InBuf),
    1 ≤ lpp.toNat → lpp.toNat ≤ 4 → nr.toNat ≤ 12 → buf.dinLen.toNat ≤ 12 * lpp.toNat →
    ∃ t, exec (.fLoad lpp nr buf) s = .next t ∧
      exec .fDigest t = .next { t with
        rsps := t.rsps ++ [okResponse ((List.range (12 * lpp.toNat)).map (dinByte buf))] }) ∧
  (∀ (s : State) (buf : InBuf), buf.dinLen.toNat ≤ 12 →
    ∃ t, exec (.nLoad buf) s = .next t ∧
      exec .nDigest t = .next { t with rsps := t.rsps ++ [okResponse ((List.range 12).map (dinByte buf))] }) ∧
  (∀ (s : State) (c : FullCtx) (buf : InBuf), s.full = some c → buf.dinLen.toNat ≤ 12 * c.lpp.toNat →
    ∃ t u, exec (.fAbsorb buf) s = .next t ∧ exec (.fAbsorb buf) t = .next u ∧ u.full = s.full) ∧
  (∀ (s : State) (w : NcCtx) (buf : InBuf), s.nc = some w → buf.dinLen.toNat ≤ 12 →
    ∃ t u, exec (.nAbsorb buf) s = .next t ∧ exec (.nAbsorb buf) t = .next u ∧ u.nc = s.nc)

/-- Loading an empty buffer is constructing the zero state, for both contexts, faults included (R57). -/
def Obligations.EmptyLoadIsTheZeroConstructor : Prop :=
  ∀ (s : State) (lpp : BitVec 3) (nr : BitVec 4) (buf : InBuf), buf.dinLen = 0 →
    exec (.fLoad lpp nr buf) s = exec (.fNew lpp nr) s ∧ exec (.nLoad buf) s = exec .nInit s
end

