-- ==== Sys2Proof/Laws/Decode.lean ====
section
/-! SUPPORT. The command word as its five fields: taking a word apart and putting it together are inverse, and the
row a word selects is decided field by field. -/

namespace Sys2Proof

section Fields

variable (op : BitVec 4) (v : BitVec 1) (l : BitVec 3) (n i : BitVec 4)

@[simp] theorem opField_assemble : opField (assemble op v l n i) = op := by
  apply BitVec.eq_of_getLsbD_eq
  intro k hk
  simp only [opField, assemble, BitVec.getLsbD_extractLsb', BitVec.getLsbD_append]
  simp [show ¬12 + k < 4 by omega, show ¬12 + k - 4 < 4 by omega, show ¬12 + k - 4 - 4 < 3 by omega,
    show ¬12 + k - 4 - 4 - 3 < 1 by omega, show 12 + k - 4 - 4 - 3 - 1 = k by omega, hk]

@[simp] theorem vField_assemble : vField (assemble op v l n i) = v := by
  apply BitVec.eq_of_getLsbD_eq
  intro k hk
  simp only [vField, assemble, BitVec.getLsbD_extractLsb', BitVec.getLsbD_append]
  simp [show ¬11 + k < 4 by omega, show ¬11 + k - 4 < 4 by omega, show ¬11 + k - 4 - 4 < 3 by omega,
    show 11 + k - 4 - 4 - 3 = k by omega, hk]

@[simp] theorem lppField_assemble : lppField (assemble op v l n i) = l := by
  apply BitVec.eq_of_getLsbD_eq
  intro k hk
  simp only [lppField, assemble, BitVec.getLsbD_extractLsb', BitVec.getLsbD_append]
  simp [show ¬8 + k < 4 by omega, show ¬8 + k - 4 < 4 by omega, show 8 + k - 4 - 4 = k by omega, hk]

@[simp] theorem nrField_assemble : nrField (assemble op v l n i) = n := by
  apply BitVec.eq_of_getLsbD_eq
  intro k hk
  simp only [nrField, assemble, BitVec.getLsbD_extractLsb', BitVec.getLsbD_append]
  simp [show ¬4 + k < 4 by omega, show 4 + k - 4 = k by omega, hk]

@[simp] theorem idxField_assemble : idxField (assemble op v l n i) = i := by
  apply BitVec.eq_of_getLsbD_eq
  intro k hk
  simp only [idxField, assemble, BitVec.getLsbD_extractLsb', BitVec.getLsbD_append]
  simp [hk]

/-- Masking a word masks its fields. -/
theorem assemble_and (op' : BitVec 4) (v' : BitVec 1) (l' : BitVec 3) (n' i' : BitVec 4) :
    assemble op v l n i &&& assemble op' v' l' n' i' =
      assemble (op &&& op') (v &&& v') (l &&& l') (n &&& n') (i &&& i') := by
  apply BitVec.eq_of_getLsbD_eq
  intro k _
  simp only [assemble, BitVec.getLsbD_and, BitVec.getLsbD_append]
  split
  · rfl
  split
  · rfl
  split
  · rfl
  split <;> rfl

end Fields

/-- A word is its fields put together. -/
theorem assemble_fields (c : BitVec 16) :
    assemble (opField c) (vField c) (lppField c) (nrField c) (idxField c) = c := by
  simp only [assemble, opField, vField, lppField, nrField, idxField]
  rw [BitVec.extractLsb'_append_extractLsb'_eq_extractLsb' (by rfl),
    BitVec.extractLsb'_append_extractLsb'_eq_extractLsb' (by rfl),
    BitVec.extractLsb'_append_extractLsb'_eq_extractLsb' (by rfl),
    BitVec.extractLsb'_append_extractLsb'_eq_extractLsb' (by rfl)]
  simp

theorem assemble_inj {op op' : BitVec 4} {v v' : BitVec 1} {l l' : BitVec 3} {n n' i i' : BitVec 4} :
    assemble op v l n i = assemble op' v' l' n' i' ↔ op = op' ∧ v = v' ∧ l = l' ∧ n = n' ∧ i = i' := by
  refine ⟨fun h => ⟨?_, ?_, ?_, ?_, ?_⟩, by rintro ⟨rfl, rfl, rfl, rfl, rfl⟩; rfl⟩
  · simpa using congrArg opField h
  · simpa using congrArg vField h
  · simpa using congrArg lppField h
  · simpa using congrArg nrField h
  · simpa using congrArg idxField h

/-- Matching a row, field by field. -/
theorem rowMatches_iff (m : Mnemonic) (c : BitVec 16) (op mop : BitVec 4) (v mv : BitVec 1) (l ml : BitVec 3)
    (n mn i mi : BitVec 4) :
    rowMatches c ⟨m, assemble op v l n i, assemble mop mv ml mn mi⟩ = true ↔
      opField c &&& mop = op ∧ vField c &&& mv = v ∧ lppField c &&& ml = l ∧ nrField c &&& mn = n ∧
        idxField c &&& mi = i := by
  rw [rowMatches, beq_iff_eq]
  conv => lhs; lhs; rw [← assemble_fields c]
  rw [assemble_and, assemble_inj]

theorem and15 (a : BitVec 4) : a &&& 15 = a := by revert a; decide

theorem and7 (a : BitVec 3) : a &&& 7 = a := by revert a; decide

theorem and1 (a : BitVec 1) : a &&& 1 = a := by revert a; decide

/-- A row of the constructing Full commands: `OP`, `V` and `IDX` are fixed. -/
theorem rowMatches_lanes (m : Mnemonic) (c : BitVec 16) (op : BitVec 4) (v : BitVec 1) :
    rowMatches c ⟨m, assemble op v 0 0 0, 0xF80F⟩ = true ↔ opField c = op ∧ vField c = v ∧ idxField c = 0 := by
  have e : (0xF80F : BitVec 16) = assemble 15 1 0 0 15 := by decide
  rw [e, rowMatches_iff, and15, and1, and15]
  simp

/-- A row without operand fields: the whole word is fixed. -/
theorem rowMatches_bare (m : Mnemonic) (c : BitVec 16) (op : BitVec 4) (v : BitVec 1) :
    rowMatches c ⟨m, assemble op v 0 0 0, 0xFFFF⟩ = true ↔
      opField c = op ∧ vField c = v ∧ lppField c = 0 ∧ nrField c = 0 ∧ idxField c = 0 := by
  have e : (0xFFFF : BitVec 16) = assemble 15 1 7 15 15 := by decide
  rw [e, rowMatches_iff, and15, and1, and7, and15, and15]

/-- A row whose `IDX` field is its operand. -/
theorem rowMatches_index (m : Mnemonic) (c : BitVec 16) (op : BitVec 4) (v : BitVec 1) :
    rowMatches c ⟨m, assemble op v 0 0 0, 0xFFF0⟩ = true ↔
      opField c = op ∧ vField c = v ∧ lppField c = 0 ∧ nrField c = 0 := by
  have e : (0xFFF0 : BitVec 16) = assemble 15 1 7 15 0 := by decide
  rw [e, rowMatches_iff, and15, and1, and7, and15]
  simp

theorem find?_cons_ite {α : Type} (p : α → Bool) (a : α) (as : List α) :
    (a :: as).find? p = if p a = true then some a else as.find? p := by
  cases h : p a <;> simp [h]

/-- The row a word selects, in terms of its fields (R54). -/
theorem selectRow_fields (c : BitVec 16) :
    selectRow c =
      if opField c = 1 ∧ vField c = 0 ∧ idxField c = 0 then some .fNew
      else if opField c = 2 ∧ vField c = 0 ∧ idxField c = 0 then some .fLoad
      else if opField c = 3 ∧ vField c = 0 ∧ lppField c = 0 ∧ nrField c = 0 ∧ idxField c = 0 then some .fAbsorb
      else if opField c = 4 ∧ vField c = 0 ∧ lppField c = 0 ∧ nrField c = 0 then some .fRound
      else if opField c = 5 ∧ vField c = 0 ∧ lppField c = 0 ∧ nrField c = 0 ∧ idxField c = 0 then some .fPermute
      else if opField c = 6 ∧ vField c = 0 ∧ lppField c = 0 ∧ nrField c = 0 ∧ idxField c = 0 then some .fDigest
      else if opField c = 7 ∧ vField c = 0 ∧ lppField c = 0 ∧ nrField c = 0 then some .fGetplane
      else if opField c = 1 ∧ vField c = 1 ∧ lppField c = 0 ∧ nrField c = 0 ∧ idxField c = 0 then some .nInit
      else if opField c = 2 ∧ vField c = 1 ∧ lppField c = 0 ∧ nrField c = 0 ∧ idxField c = 0 then some .nLoad
      else if opField c = 3 ∧ vField c = 1 ∧ lppField c = 0 ∧ nrField c = 0 ∧ idxField c = 0 then some .nAbsorb
      else if opField c = 4 ∧ vField c = 1 ∧ lppField c = 0 ∧ nrField c = 0 then some .nRound
      else if opField c = 5 ∧ vField c = 1 ∧ lppField c = 0 ∧ nrField c = 0 ∧ idxField c = 0 then some .nPermute
      else if opField c = 6 ∧ vField c = 1 ∧ lppField c = 0 ∧ nrField c = 0 ∧ idxField c = 0 then some .nDigest
      else none := by
  have e : opcodeMap =
      [ ⟨.fNew, assemble 1 0 0 0 0, 0xF80F⟩, ⟨.fLoad, assemble 2 0 0 0 0, 0xF80F⟩,
        ⟨.fAbsorb, assemble 3 0 0 0 0, 0xFFFF⟩, ⟨.fRound, assemble 4 0 0 0 0, 0xFFF0⟩,
        ⟨.fPermute, assemble 5 0 0 0 0, 0xFFFF⟩, ⟨.fDigest, assemble 6 0 0 0 0, 0xFFFF⟩,
        ⟨.fGetplane, assemble 7 0 0 0 0, 0xFFF0⟩, ⟨.nInit, assemble 1 1 0 0 0, 0xFFFF⟩,
        ⟨.nLoad, assemble 2 1 0 0 0, 0xFFFF⟩, ⟨.nAbsorb, assemble 3 1 0 0 0, 0xFFFF⟩,
        ⟨.nRound, assemble 4 1 0 0 0, 0xFFF0⟩, ⟨.nPermute, assemble 5 1 0 0 0, 0xFFFF⟩,
        ⟨.nDigest, assemble 6 1 0 0 0, 0xFFFF⟩ ] := by decide
  simp only [selectRow, e, find?_cons_ite, List.find?_nil, rowMatches_lanes, rowMatches_bare, rowMatches_index,
    apply_ite (Option.map OpRow.name), Option.map_some, Option.map_none]

/-- A selected row is a row of the opcode map, and the word matches it. -/
theorem selectRow_mem {c : BitVec 16} {m : Mnemonic} (h : selectRow c = some m) :
    ∃ r ∈ opcodeMap, rowMatches c r = true ∧ r.name = m := by
  unfold selectRow at h
  obtain ⟨r, hr, hm⟩ := Option.map_eq_some_iff.1 h
  exact ⟨r, List.mem_of_find?_eq_some hr, List.find?_some hr, hm⟩

/-- The decoder, once the row is known. -/
theorem decode_of_row {c : Command} {m : Mnemonic} (h : selectRow c.cmd = some m) : decode c = .ok (buildInstr m c) := by
  simp [decode, h]

/-- The decoder refuses a word exactly when no row matches. -/
theorem decode_error_iff (c : Command) : (∃ e, decode c = .error e) ↔ selectRow c.cmd = none := by
  unfold decode
  cases selectRow c.cmd <;> simp

end Sys2Proof
end

