-- ==== Sys2Proof/Laws/State.lean ====
section
/-! SUPPORT. What each named update of the block and of the system does to each field: one lemma per field per update,
all true by definition, so that no later proof unfolds a record update. -/

namespace Sys2Proof.Machine

open Sys2Proof

@[simp] theorem setFault_full (c : Cause) (b : Block) : (setFault c b).full = b.full := rfl
@[simp] theorem setFault_nc (c : Cause) (b : Block) : (setFault c b).nc = b.nc := rfl
@[simp] theorem setFault_busy (c : Cause) (b : Block) : (setFault c b).busy = b.busy := rfl
@[simp] theorem setFault_fault (c : Cause) (b : Block) : (setFault c b).fault = true := rfl
@[simp] theorem setFault_cause (c : Cause) (b : Block) : (setFault c b).cause = c := rfl
@[simp] theorem setFault_ri (c : Cause) (b : Block) : (setFault c b).ri = b.ri := rfl
@[simp] theorem setFault_re (c : Cause) (b : Block) : (setFault c b).re = b.re := rfl
@[simp] theorem setFault_rv (c : Cause) (b : Block) : (setFault c b).rv = b.rv := rfl

@[simp] theorem setFull_full (c : FullCtx) (b : Block) : (setFull c b).full = some c := rfl
@[simp] theorem setFull_nc (c : FullCtx) (b : Block) : (setFull c b).nc = b.nc := rfl
@[simp] theorem setFull_busy (c : FullCtx) (b : Block) : (setFull c b).busy = b.busy := rfl
@[simp] theorem setFull_fault (c : FullCtx) (b : Block) : (setFull c b).fault = b.fault := rfl
@[simp] theorem setFull_cause (c : FullCtx) (b : Block) : (setFull c b).cause = b.cause := rfl
@[simp] theorem setFull_ri (c : FullCtx) (b : Block) : (setFull c b).ri = b.ri := rfl
@[simp] theorem setFull_re (c : FullCtx) (b : Block) : (setFull c b).re = b.re := rfl
@[simp] theorem setFull_rv (c : FullCtx) (b : Block) : (setFull c b).rv = b.rv := rfl

@[simp] theorem setNc_full (w : NcCtx) (b : Block) : (setNc w b).full = b.full := rfl
@[simp] theorem setNc_nc (w : NcCtx) (b : Block) : (setNc w b).nc = some w := rfl
@[simp] theorem setNc_busy (w : NcCtx) (b : Block) : (setNc w b).busy = b.busy := rfl
@[simp] theorem setNc_fault (w : NcCtx) (b : Block) : (setNc w b).fault = b.fault := rfl
@[simp] theorem setNc_cause (w : NcCtx) (b : Block) : (setNc w b).cause = b.cause := rfl
@[simp] theorem setNc_ri (w : NcCtx) (b : Block) : (setNc w b).ri = b.ri := rfl
@[simp] theorem setNc_re (w : NcCtx) (b : Block) : (setNc w b).re = b.re := rfl
@[simp] theorem setNc_rv (w : NcCtx) (b : Block) : (setNc w b).rv = b.rv := rfl

@[simp] theorem setRounds_full (v : Variant) (x y : BitVec 4) (b : Block) : (setRounds v x y b).full = b.full := rfl
@[simp] theorem setRounds_nc (v : Variant) (x y : BitVec 4) (b : Block) : (setRounds v x y b).nc = b.nc := rfl
@[simp] theorem setRounds_busy (v : Variant) (x y : BitVec 4) (b : Block) : (setRounds v x y b).busy = b.busy := rfl
@[simp] theorem setRounds_fault (v : Variant) (x y : BitVec 4) (b : Block) : (setRounds v x y b).fault = b.fault := rfl
@[simp] theorem setRounds_cause (v : Variant) (x y : BitVec 4) (b : Block) : (setRounds v x y b).cause = b.cause := rfl
@[simp] theorem setRounds_ri (v : Variant) (x y : BitVec 4) (b : Block) : (setRounds v x y b).ri = x := rfl
@[simp] theorem setRounds_re (v : Variant) (x y : BitVec 4) (b : Block) : (setRounds v x y b).re = y := rfl
@[simp] theorem setRounds_rv (v : Variant) (x y : BitVec 4) (b : Block) : (setRounds v x y b).rv = v := rfl

@[simp] theorem setBusy_full (b : Block) : (setBusy b).full = b.full := rfl
@[simp] theorem setBusy_nc (b : Block) : (setBusy b).nc = b.nc := rfl
@[simp] theorem setBusy_busy (b : Block) : (setBusy b).busy = true := rfl
@[simp] theorem setBusy_fault (b : Block) : (setBusy b).fault = b.fault := rfl
@[simp] theorem setBusy_cause (b : Block) : (setBusy b).cause = b.cause := rfl
@[simp] theorem setBusy_ri (b : Block) : (setBusy b).ri = b.ri := rfl
@[simp] theorem setBusy_re (b : Block) : (setBusy b).re = b.re := rfl
@[simp] theorem setBusy_rv (b : Block) : (setBusy b).rv = b.rv := rfl

@[simp] theorem hear_none (rs : List Response) : hear none rs = rs := rfl
@[simp] theorem hear_some (r : Response) (rs : List Response) : hear (some r) rs = rs ++ [r] := rfl

theorem hear_eq (r : Option Response) (rs : List Response) : hear r rs = rs ++ r.toList := by
  cases r <;> simp

@[simp] theorem receive_full (o : BlockStep) (s : State) : (receive o s).full = o.block.full := rfl
@[simp] theorem receive_nc (o : BlockStep) (s : State) : (receive o s).nc = o.block.nc := rfl
@[simp] theorem receive_busy (o : BlockStep) (s : State) : (receive o s).busy = o.block.busy := rfl
@[simp] theorem receive_fault (o : BlockStep) (s : State) : (receive o s).fault = o.block.fault := rfl
@[simp] theorem receive_cause (o : BlockStep) (s : State) : (receive o s).cause = o.block.cause := rfl
@[simp] theorem receive_ri (o : BlockStep) (s : State) : (receive o s).ri = o.block.ri := rfl
@[simp] theorem receive_re (o : BlockStep) (s : State) : (receive o s).re = o.block.re := rfl
@[simp] theorem receive_rv (o : BlockStep) (s : State) : (receive o s).rv = o.block.rv := rfl
@[simp] theorem receive_toBlock (o : BlockStep) (s : State) : (receive o s).toBlock = o.block := rfl
@[simp] theorem receive_moves (o : BlockStep) (s : State) : (receive o s).moves = s.moves := rfl
@[simp] theorem receive_rsps (o : BlockStep) (s : State) : (receive o s).rsps = hear o.rsp s.rsps := rfl

/-- A step of the block that changes nothing and gives no response changes nothing in the system, whatever moves the
host has left. -/
@[simp] theorem receive_silent (ms : List HostMove) (s : State) :
    receive { block := s.toBlock, rsp := none } (setMoves ms s) = setMoves ms s := rfl

@[simp] theorem faultEntry_full (c : Cause) (s : State) : (faultEntry c s).full = s.full := rfl
@[simp] theorem faultEntry_nc (c : Cause) (s : State) : (faultEntry c s).nc = s.nc := rfl
@[simp] theorem faultEntry_busy (c : Cause) (s : State) : (faultEntry c s).busy = s.busy := rfl
@[simp] theorem faultEntry_fault (c : Cause) (s : State) : (faultEntry c s).fault = true := rfl
@[simp] theorem faultEntry_cause (c : Cause) (s : State) : (faultEntry c s).cause = c := rfl
@[simp] theorem faultEntry_ri (c : Cause) (s : State) : (faultEntry c s).ri = s.ri := rfl
@[simp] theorem faultEntry_re (c : Cause) (s : State) : (faultEntry c s).re = s.re := rfl
@[simp] theorem faultEntry_rv (c : Cause) (s : State) : (faultEntry c s).rv = s.rv := rfl
@[simp] theorem faultEntry_moves (c : Cause) (s : State) : (faultEntry c s).moves = s.moves := rfl
@[simp] theorem faultEntry_rsps (c : Cause) (s : State) : (faultEntry c s).rsps = s.rsps ++ [faultResponse c] := rfl

@[simp] theorem setMoves_full (ms : List HostMove) (s : State) : (setMoves ms s).full = s.full := rfl
@[simp] theorem setMoves_nc (ms : List HostMove) (s : State) : (setMoves ms s).nc = s.nc := rfl
@[simp] theorem setMoves_busy (ms : List HostMove) (s : State) : (setMoves ms s).busy = s.busy := rfl
@[simp] theorem setMoves_fault (ms : List HostMove) (s : State) : (setMoves ms s).fault = s.fault := rfl
@[simp] theorem setMoves_cause (ms : List HostMove) (s : State) : (setMoves ms s).cause = s.cause := rfl
@[simp] theorem setMoves_ri (ms : List HostMove) (s : State) : (setMoves ms s).ri = s.ri := rfl
@[simp] theorem setMoves_re (ms : List HostMove) (s : State) : (setMoves ms s).re = s.re := rfl
@[simp] theorem setMoves_rv (ms : List HostMove) (s : State) : (setMoves ms s).rv = s.rv := rfl
@[simp] theorem setMoves_toBlock (ms : List HostMove) (s : State) : (setMoves ms s).toBlock = s.toBlock := rfl
@[simp] theorem setMoves_rsps (ms : List HostMove) (s : State) : (setMoves ms s).rsps = s.rsps := rfl
@[simp] theorem setMoves_moves (ms : List HostMove) (s : State) : (setMoves ms s).moves = ms := rfl

@[simp] theorem setLanes_lpp (c : FullCtx) (a : Cube c.lpp.toNat) : (setLanes c a).lpp = c.lpp := rfl
@[simp] theorem setLanes_nr (c : FullCtx) (a : Cube c.lpp.toNat) : (setLanes c a).nr = c.nr := rfl
@[simp] theorem setLanes_a (c : FullCtx) (a : Cube c.lpp.toNat) : (setLanes c a).a = a := rfl

end Sys2Proof.Machine
end

