-- ==== Sys2Proof/Laws/Ops.lean ====
section
/-! SUPPORT. The shared operations of Machine/Ops.lean: what each can answer, once; and a step of the system as a step of
the block. -/

namespace Sys2Proof.Machine

open Sys2Proof

theorem raiseFault_next (c : Cause) (b : Block) :
    raiseFault c b = .next { block := setFault c b, rsp := some (faultResponse c) } := rfl

theorem complete_next (d : List Byte) (b : Block) :
    complete d b = .next { block := b, rsp := some (okResponse d) } := rfl

theorem silent_next (b : Block) : silent b = .next { block := b, rsp := none } := rfl

theorem startRounds_next (v : Variant) (x y : BitVec 4) (b : Block) :
    startRounds v x y b = .next { block := setBusy (setRounds v x y b), rsp := none } := rfl

theorem withFull_none {b : Block} (h : b.full = none) (k : FullCtx → BlockResult) :
    withFull b k = raiseFault .noContext b := by
  simp [withFull, h]

theorem withFull_some {b : Block} {c : FullCtx} (h : b.full = some c) (k : FullCtx → BlockResult) :
    withFull b k = k c := by
  simp [withFull, h]

theorem withNc_none {b : Block} (h : b.nc = none) (k : NcCtx → BlockResult) :
    withNc b k = raiseFault .noContext b := by
  simp [withNc, h]

theorem withNc_some {b : Block} {w : NcCtx} (h : b.nc = some w) (k : NcCtx → BlockResult) :
    withNc b k = k w := by
  simp [withNc, h]

/-- Constructing a context anew as what it already is changes nothing. -/
theorem setFull_self {b : Block} {c : FullCtx} (h : b.full = some c) : setFull c b = b := by
  cases b; simp_all [setFull]

theorem setNc_self {b : Block} {w : NcCtx} (h : b.nc = some w) : setNc w b = b := by
  cases b; simp_all [setNc]

/-- Everything the end of an engine step can do: the rounds are over and the response is given, or they go on. -/
theorem advanceRound_cases (b : Block) :
    (b.ri + 1 = b.re ∧ advanceRound b =
      .next { block := { b with ri := b.ri + 1, busy := false }, rsp := some (okResponse []) }) ∨
    (b.ri + 1 ≠ b.re ∧ advanceRound b = .next { block := { b with ri := b.ri + 1 }, rsp := none }) := by
  by_cases h : b.ri + 1 = b.re
  · exact .inl ⟨h, by rw [advanceRound, if_pos h]; rfl⟩
  · exact .inr ⟨h, by rw [advanceRound, if_neg h]; rfl⟩

/-! ### Steps of the system as steps of the block -/

theorem onBlock_next {f : Block → BlockResult} {s : State} {o : BlockStep} (h : f s.toBlock = .next o) :
    onBlock f s = .next (receive o s) := by
  simp only [onBlock, h]

theorem onBlock_fault {f : Block → BlockResult} {s : State} {e : Fault} (h : f s.toBlock = .fault e) :
    onBlock f s = .fault e := by
  simp only [onBlock, h]

/-- A next state of the system is a next state of the block, with its response received. -/
theorem onBlock_inv {f : Block → BlockResult} {s t : State} (h : onBlock f s = .next t) :
    ∃ o, f s.toBlock = .next o ∧ t = receive o s := by
  unfold onBlock at h
  split at h
  · rename_i o ho
    cases h
    exact ⟨o, ho, rfl⟩
  · cases h
  · cases h

/-- A step of the block that faults, in the system. -/
theorem onBlock_raises {f : Block → BlockResult} {s : State} {c : Cause} (h : f s.toBlock = raiseFault c s.toBlock) :
    onBlock f s = .next (faultEntry c s) :=
  onBlock_next h

/-- A step of the block that completes, in the system. -/
theorem onBlock_completes {f : Block → BlockResult} {s : State} {d : List Byte} {b : Block}
    (h : f s.toBlock = complete d b) : onBlock f s = .next { s with toBlock := b, rsps := s.rsps ++ [okResponse d] } :=
  onBlock_next h

/-- A step of the block that gives no response, in the system. -/
theorem onBlock_quiet {f : Block → BlockResult} {s : State} {b : Block} (h : f s.toBlock = silent b) :
    onBlock f s = .next { s with toBlock := b } :=
  onBlock_next h

end Sys2Proof.Machine
end

