-- ==== Sys2Proof/Laws/Exec.lean ====
section
/-! SUPPORT. Everything an accepted command and an engine step can do to the block, once each: later proofs split on these
cases and do not unfold the meanings again. -/

namespace Sys2Proof.Machine

open Sys2Proof

/-! ### The commands -/

/-- The meaning of a command in the system is the step of the block, run in it. -/
theorem exec_eq (i : Instr) (s : State) : exec i s = onBlock (blockExec i) s := by
  cases i <;> rfl

/-- Everything the host step of a decoded command can do: fault with a cause that is not `NONE`; or complete, giving
one response, with at most one context replaced; or, for `F_PERMUTE` with no rounds, complete with the round
registers written; or start rounds of a constructed context. -/
inductive ExecCases (b : Block) : BlockResult → Prop where
  | faulted (k : Cause) (h : k ≠ .none) : ExecCases b (raiseFault k b)
  | answered (d : List Byte) : ExecCases b (complete d b)
  | fullWritten (c : FullCtx) : ExecCases b (complete [] (setFull c b))
  | ncWritten (w : NcCtx) : ExecCases b (complete [] (setNc w b))
  | noRounds (x y : BitVec 4) : ExecCases b (complete [] (setRounds .F x y b))
  | roundsStarted (v : Variant) (x y : BitVec 4) (hv : contextValid b v = true) : ExecCases b (startRounds v x y b)

theorem blockExec_cases (i : Instr) (b : Block) : ExecCases b (blockExec i b) := by
  have none_full : ∀ k, b.full = none → ExecCases b (withFull b k) := fun k h => by
    rw [withFull_none h]; exact .faulted _ (by decide)
  have none_nc : ∀ k, b.nc = none → ExecCases b (withNc b k) := fun k h => by
    rw [withNc_none h]; exact .faulted _ (by decide)
  cases i with
  | fNew lpp nr =>
    simp only [blockExec, blockFNew]
    split
    · exact .faulted _ (by decide)
    · split
      · exact .faulted _ (by decide)
      · exact .fullWritten _
  | fLoad lpp nr buf =>
    simp only [blockExec, blockFLoad]
    split
    · exact .faulted _ (by decide)
    · split
      · exact .faulted _ (by decide)
      · split
        · exact .faulted _ (by decide)
        · exact .fullWritten _
  | fAbsorb buf =>
    cases h : b.full with
    | none => exact none_full _ h
    | some c =>
      simp only [blockExec, blockFAbsorb, withFull_some h]
      split
      · exact .faulted _ (by decide)
      · exact .fullWritten _
  | fRound idx =>
    cases h : b.full with
    | none => exact none_full _ h
    | some c =>
      simp only [blockExec, blockFRound, withFull_some h]
      split
      · exact .faulted _ (by decide)
      · exact .roundsStarted _ _ _ (by simp [contextValid, fValid, h])
  | fPermute =>
    cases h : b.full with
    | none => exact none_full _ h
    | some c =>
      simp only [blockExec, blockFPermute, withFull_some h]
      split
      · exact .noRounds _ _
      · exact .roundsStarted _ _ _ (by simp [contextValid, fValid, h])
  | fDigest =>
    cases h : b.full with
    | none => exact none_full _ h
    | some c => simp only [blockExec, blockFDigest, withFull_some h]; exact .answered _
  | fGetplane p =>
    cases h : b.full with
    | none => exact none_full _ h
    | some c =>
      simp only [blockExec, blockFGetplane, withFull_some h]
      split
      · exact .answered _
      · exact .faulted _ (by decide)
  | nInit => exact .ncWritten _
  | nLoad buf =>
    simp only [blockExec, blockNLoad]
    split
    · exact .faulted _ (by decide)
    · exact .ncWritten _
  | nAbsorb buf =>
    cases h : b.nc with
    | none => exact none_nc _ h
    | some w =>
      simp only [blockExec, blockNAbsorb, withNc_some h]
      split
      · exact .faulted _ (by decide)
      · exact .ncWritten _
  | nRound idx =>
    cases h : b.nc with
    | none => exact none_nc _ h
    | some w =>
      simp only [blockExec, blockNRound, withNc_some h]
      split
      · exact .faulted _ (by decide)
      · exact .roundsStarted _ _ _ (by simp [contextValid, nValid, h])
  | nPermute =>
    cases h : b.nc with
    | none => exact none_nc _ h
    | some w =>
      simp only [blockExec, blockNPermute, withNc_some h]
      exact .roundsStarted _ _ _ (by simp [contextValid, nValid, h])
  | nDigest =>
    cases h : b.nc with
    | none => exact none_nc _ h
    | some w => simp only [blockExec, blockNDigest, withNc_some h]; exact .answered _

/-- A next state that a command answers in the system, as a case of the block's step with its response received. -/
theorem exec_next {i : Instr} {s t : State} (h : exec i s = .next t) :
    ∃ o, ExecCases s.toBlock (.next o) ∧ t = receive o s := by
  rw [exec_eq] at h
  obtain ⟨o, ho, rfl⟩ := onBlock_inv h
  exact ⟨o, ho ▸ blockExec_cases i s.toBlock, rfl⟩

/-! ### The engine step -/

/-- Everything an engine step can do: stop outside the states of R19 (b), or run one round of the context `RV`
names and advance. -/
inductive EngineCases (b : Block) : BlockResult → Prop where
  | noRom (h : 12 ≤ b.ri.toNat) : EngineCases b (.fault .romIndex)
  | noContext (h : contextValid b b.rv = false) : EngineCases b (.fault .engineNoContext)
  | full (c : FullCtx) (hc : b.full = some c) (h : b.ri.toNat < 12) (hv : b.rv = .F) :
      EngineCases b (advanceRound (setFull (setLanes c (roundF c.a ⟨b.ri.toNat, h⟩)) b))
  | nc (w : NcCtx) (hw : b.nc = some w) (h : b.ri.toNat < 12) (hv : b.rv = .N) :
      EngineCases b (advanceRound (setNc (roundN w ⟨b.ri.toNat, h⟩) b))

theorem blockEngine_cases (b : Block) : EngineCases b (blockEngine b) := by
  simp only [blockEngine]
  split
  · split
    · split
      · exact .noContext (by simp_all [contextValid, fValid])
      · exact .full _ ‹_› _ ‹_›
    · split
      · exact .noContext (by simp_all [contextValid, nValid])
      · exact .nc _ ‹_› _ ‹_›
  · exact .noRom (by omega)

/-- An engine step runs whenever the ROM has the round's constant and the context `RV` names is constructed. -/
theorem engineStep_runs {s : State} (h : s.ri.toNat < 12) (hv : contextValid s.toBlock s.rv = true) :
    ∃ t, engineStep s = .next t := by
  have K := blockEngine_cases s.toBlock
  unfold engineStep onBlock
  generalize blockEngine s.toBlock = r at K
  cases K with
  | noRom h' => omega
  | noContext h' => simp [hv] at h'
  | full c hc h hv =>
    rcases advanceRound_cases (setFull (setLanes c (roundF c.a ⟨s.ri.toNat, h⟩)) s.toBlock) with ⟨-, e⟩ | ⟨-, e⟩ <;>
      exact ⟨_, by rw [e]⟩
  | nc w hw h hv =>
    rcases advanceRound_cases (setNc (roundN w ⟨s.ri.toNat, h⟩) s.toBlock) with ⟨-, e⟩ | ⟨-, e⟩ <;>
      exact ⟨_, by rw [e]⟩

/-- What an engine step that runs leaves as it was, and what it does to the controller. -/
structure EngineFrame (s t : State) : Prop where
  moves : t.moves = s.moves
  fault : t.fault = s.fault
  cause : t.cause = s.cause
  re : t.re = s.re
  rv : t.rv = s.rv
  ri : t.ri = s.ri + 1
  lpp : fLpp t.toBlock = fLpp s.toBlock
  nr : fNr t.toBlock = fNr s.toBlock
  fValid : fValid t.toBlock = fValid s.toBlock
  nValid : nValid t.toBlock = nValid s.toBlock
  /-- The other context is untouched. -/
  other : (s.rv = .F → t.nc = s.nc) ∧ (s.rv = .N → t.full = s.full)
  /-- The rounds are over and the response is given, or they go on. -/
  ends : (s.ri + 1 = s.re ∧ t.busy = false ∧ t.rsps = s.rsps ++ [okResponse []]) ∨
    (s.ri + 1 ≠ s.re ∧ t.busy = s.busy ∧ t.rsps = s.rsps)

/-- The frame of the end of an engine step, once for both contexts: `b` is the block after the round. -/
theorem engineFrame_of_advance {s t : State} {b : Block} {o : BlockStep} (ho : advanceRound b = .next o)
    (ht : t = receive o s) (hri : b.ri = s.ri) (hre : b.re = s.re) (hbusy : b.busy = s.busy) (hfault : b.fault = s.fault)
    (hcause : b.cause = s.cause) (hrv : b.rv = s.rv) (hlpp : fLpp b = fLpp s.toBlock) (hnr : fNr b = fNr s.toBlock)
    (hn : nValid b = nValid s.toBlock) (hother : (s.rv = .F → b.nc = s.nc) ∧ (s.rv = .N → b.full = s.full)) :
    EngineFrame s t := by
  have hf : fValid b = fValid s.toBlock := by
    have := congrArg Option.isSome hlpp
    simpa [fLpp, fValid] using this
  subst ht
  rcases advanceRound_cases b with ⟨e, e'⟩ | ⟨e, e'⟩
  · rw [e'] at ho
    cases ho
    rw [hri, hre] at e
    exact ⟨rfl, hfault, hcause, hre, hrv, by rw [← hri]; rfl, hlpp, hnr, hf, hn, hother, .inl ⟨e, rfl, rfl⟩⟩
  · rw [e'] at ho
    cases ho
    rw [hri, hre] at e
    exact ⟨rfl, hfault, hcause, hre, hrv, by rw [← hri]; rfl, hlpp, hnr, hf, hn, hother, .inr ⟨e, hbusy, rfl⟩⟩

theorem engineStep_frame {s t : State} (h : engineStep s = .next t) : EngineFrame s t := by
  obtain ⟨o, ho, ht⟩ := onBlock_inv h
  have K := blockEngine_cases s.toBlock
  rw [ho] at K
  generalize hr : Host.Outcome.next o = r at K
  cases K with
  | noRom _ => cases hr
  | noContext _ => cases hr
  | full c hc _ hv =>
    exact engineFrame_of_advance hr.symm ht rfl rfl rfl rfl rfl rfl (by simp [fLpp, hc]) (by simp [fNr, hc]) rfl
      ⟨fun _ => rfl, by simp [hv]⟩
  | nc w hw _ hv =>
    exact engineFrame_of_advance hr.symm ht rfl rfl rfl rfl rfl rfl rfl rfl (by simp [nValid, hw])
      ⟨by simp [hv], fun _ => rfl⟩

end Sys2Proof.Machine
end

