-- ==== Sys2Proof/Laws/Operands.lean ====
section
/-! SUPPORT. The byte buffers: writing lanes one after another is writing their bytes in order, so the output of the
reading commands is the serialisation the source speaks of (R69, R96, R97, R105). -/

namespace Sys2Proof.Machine

open Sys2Proof

@[simp] theorem laneBytes_length (v : Lane) : (laneBytes v).length = 4 := rfl

theorem flatMap_laneBytes_length (vs : List Lane) : (vs.flatMap laneBytes).length = 4 * vs.length := by
  induction vs with
  | nil => rfl
  | cons v vs ih => simp [ih]; omega

@[simp] theorem planeSerialize_length {n : Nat} (p : Plane n) : (planeSerialize p).length = 4 * n := by
  rw [planeSerialize, flatMap_laneBytes_length, Vector.length_toList]

/-- Writing a list of lanes from offset `k` replaces the bytes from `k` on by theirs. -/
theorem writeLanes_eq (vs : List Lane) (out : List Byte) (k : Nat) (h : k + 4 * vs.length ≤ out.length) :
    writeLanes out k vs = out.take k ++ vs.flatMap laneBytes ++ out.drop (k + 4 * vs.length) := by
  induction vs generalizing out k with
  | nil => simp [writeLanes]
  | cons v vs ih =>
    simp only [List.length_cons] at h
    have hk : (out.take k).length = k := by simp; omega
    have hm : (memWrite out k v).length = out.length := by simp [memWrite]; omega
    rw [writeLanes, ih _ _ (by omega)]
    have h1 : (memWrite out k v).take (k + 4) = out.take k ++ laneBytes v := by
      rw [memWrite, List.take_append_of_le_length (by simp; omega)]
      exact List.take_of_length_le (by simp)
    have h2 : (memWrite out k v).drop (k + 4 + 4 * vs.length) = out.drop (k + 4 * (vs.length + 1)) := by
      rw [memWrite, List.drop_append, List.drop_of_length_le (by simp; omega), List.drop_drop, List.nil_append]
      congr 1
      simp
      omega
    rw [h1, h2]
    simp

/-- Writing on after a prefix that is already written. -/
theorem writeLanes_append (done : List Byte) (m k : Nat) (vs : List Lane) (hk : k = done.length)
    (hm : 4 * vs.length ≤ m) :
    writeLanes (done ++ outZero m) k vs = (done ++ vs.flatMap laneBytes) ++ outZero (m - 4 * vs.length) := by
  subst hk
  rw [writeLanes_eq _ _ _ (by simp [outZero]; omega)]
  simp [outZero, List.drop_append]

/-- `F_GETPLANE` returns the plane's serialisation. -/
theorem planeBytes_eq {n : Nat} (p : Plane n) : planeBytes p = planeSerialize p := by
  have h := writeLanes_append [] (4 * n) 0 p.toList rfl (by simp)
  simpa [planeBytes, planeSerialize, outZero] using h

/-- `F_DIGEST` returns the serialisations of planes 0, 1, 2, one after another. -/
theorem digestBytes_eq {n : Nat} (s : Cube n) :
    digestBytes s = planeSerialize s.a0 ++ planeSerialize s.a1 ++ planeSerialize s.a2 := by
  have l0 := planeSerialize_length s.a0
  have l1 := planeSerialize_length s.a1
  have h0 := writeLanes_append [] (12 * n) (laneOffset n 0 0) s.a0.toList (by simp [laneOffset]) (by simp; omega)
  have h1 := writeLanes_append (planeSerialize s.a0) (12 * n - 4 * n) (laneOffset n 1 0) s.a1.toList
    (by simp [laneOffset]) (by simp; omega)
  have h2 := writeLanes_append (planeSerialize s.a0 ++ planeSerialize s.a1) (12 * n - 4 * n - 4 * n)
    (laneOffset n 2 0) s.a2.toList (by simp [laneOffset]; omega) (by simp; omega)
  have hz : outZero (12 * n - 4 * n - 4 * n - 4 * n) = [] := by
    have : 12 * n - 4 * n - 4 * n - 4 * n = 0 := by omega
    simp [outZero, this]
  simp only [List.nil_append, Vector.length_toList] at h0 h1 h2
  rw [digestBytes, h0]
  exact (congrArg (writeLanes · _ _) h1).trans (h2.trans (by rw [hz, List.append_nil]; rfl))

/-- `N_DIGEST` returns the bytes of words 0, 1, 2, one after another. -/
theorem wordsBytes_eq (w : NcCtx) : wordsBytes w = laneBytes w.w0 ++ laneBytes w.w1 ++ laneBytes w.w2 := by
  rw [wordsBytes, writeLanes_eq _ _ _ (by simp [outZero])]
  simp [outZero]

end Sys2Proof.Machine
end

