-- ==== Sys2Proof/Laws/PerInstr.lean ====
section
/-! SUPPORT. One lemma per command about its encoding: the class bit names the context the command works on (R49),
the opcode is one of 1 to 7 (R48), and a command that takes no data is encoded with an empty buffer (R31, R45). -/

namespace Sys2Proof.Laws.EncodedClass

open Sys2Proof Sys2Proof.Machine

/-- The statement of the family, about one instruction. -/
def Statement (i : Instr) : Prop :=
  vField (encodeWord i) = (if isFull i then 0 else 1) ∧
  1 ≤ (opField (encodeWord i)).toNat ∧ (opField (encodeWord i)).toNat ≤ 7 ∧
  (takesData i = false → encodeBuf i = InBuf.empty)

theorem fNew (lpp : BitVec 3) (nr : BitVec 4) : Statement (.fNew lpp nr) := by
  simp [Statement, encodeWord, isFull, encodeBuf]

theorem fLoad (lpp : BitVec 3) (nr : BitVec 4) (buf : InBuf) : Statement (.fLoad lpp nr buf) := by
  simp [Statement, encodeWord, isFull, takesData]

theorem fAbsorb (buf : InBuf) : Statement (.fAbsorb buf) := by
  simp [Statement, encodeWord, isFull, takesData]

theorem fRound (i : BitVec 4) : Statement (.fRound i) := by
  simp [Statement, encodeWord, isFull, encodeBuf]

theorem fPermute : Statement .fPermute := by simp [Statement, encodeWord, isFull, encodeBuf]

theorem fDigest : Statement .fDigest := by simp [Statement, encodeWord, isFull, encodeBuf]

theorem fGetplane (p : BitVec 4) : Statement (.fGetplane p) := by
  simp [Statement, encodeWord, isFull, encodeBuf]

theorem nInit : Statement .nInit := by simp [Statement, encodeWord, isFull, encodeBuf]

theorem nLoad (buf : InBuf) : Statement (.nLoad buf) := by
  simp [Statement, encodeWord, isFull, takesData]

theorem nAbsorb (buf : InBuf) : Statement (.nAbsorb buf) := by
  simp [Statement, encodeWord, isFull, takesData]

theorem nRound (i : BitVec 4) : Statement (.nRound i) := by
  simp [Statement, encodeWord, isFull, encodeBuf]

theorem nPermute : Statement .nPermute := by simp [Statement, encodeWord, isFull, encodeBuf]

theorem nDigest : Statement .nDigest := by simp [Statement, encodeWord, isFull, encodeBuf]

end Sys2Proof.Laws.EncodedClass
end

