-- ==== Sys2Proof/Laws/Planes.lean ====
section
/-! SUPPORT. The plane primitives lane by lane: one lemma per primitive, so that a proof about planes becomes one
about a lane. -/

namespace Sys2Proof.Machine

open Sys2Proof

/-- Two planes with the same lanes are equal. -/
theorem plane_ext {n : Nat} {p q : Plane n} (h : ∀ (i : Nat) (hi : i < n), p[i] = q[i]) : p = q :=
  Vector.ext h

/-! Lane positions are natural numbers with a bound here: that is the form `simp` brings an indexed lane to. -/

section Lanes

variable {n : Nat} (p q : Plane n) (i : Nat) (hi : i < n)

@[simp] theorem planeZero_lane : (planeZero n)[i] = 0 := by simp [planeZero]

@[simp] theorem planeXor_lane : (planeXor p q)[i] = p[i] ^^^ q[i] := by simp [planeXor]

@[simp] theorem planeAnd_lane : (planeAnd p q)[i] = p[i] &&& q[i] := by simp [planeAnd]

@[simp] theorem planeNot_lane : (planeNot p)[i] = ~~~p[i] := by simp [planeNot]

@[simp] theorem planeXorWord_lane (k : Nat) (v : Lane) :
    (planeXorWord p k v)[i] = if i = k then p[i] ^^^ v else p[i] := by
  simp [planeXorWord]

@[simp] theorem planeShift_lane (x z : Int) :
    (planeShift p x z)[i] = rotl32 p[(sourceLane ⟨i, hi⟩ x).val] z := by
  simp [planeShift]

@[simp] theorem planeFromBytes_lane (b : List Byte) :
    (planeFromBytes b n)[i] = laneOfBytes (byteOrZero b (4 * i)) (byteOrZero b (4 * i + 1))
      (byteOrZero b (4 * i + 2)) (byteOrZero b (4 * i + 3)) := by
  simp [planeFromBytes]

end Lanes

/-- The source position of a lane rotation, as the integer `emod(i - x, n)` of R66. -/
theorem sourceLane_val {n : Nat} (i : Fin n) (x : Int) :
    ((sourceLane i x).val : Int) = ((i.val : Int) - x) % n := by
  have hn : (n : Int) ≠ 0 := by have := i.isLt; omega
  exact Int.toNat_of_nonneg (Int.emod_nonneg _ hn)

/-- The source position is the only lane number with that value. -/
theorem sourceLane_eq {n : Nat} {i j : Fin n} {x : Int} (h : (j.val : Int) = ((i.val : Int) - x) % n) :
    sourceLane i x = j := by
  have := sourceLane_val i x
  exact Fin.ext (by omega)

/-- `rotl32` is the library's rotation by `emod(z, 32)`. -/
theorem rotl32_eq (v : Lane) (z : Int) : rotl32 v z = v.rotateLeft (z % 32).toNat := by
  have h : (z % 32).toNat < 32 := by omega
  unfold rotl32
  simp only
  split
  · next h0 =>
    have hz : v >>> 32 = 0 := by ext k hk; simp
    simp [h0, BitVec.rotateLeft, BitVec.rotateLeftAux, hz]
  · simp [BitVec.rotateLeft, BitVec.rotateLeftAux, Nat.mod_eq_of_lt h]

end Sys2Proof.Machine
end

