-- ==== Sys2Proof/Laws/Step.lean ====
section
/-! SUPPORT. The turn of the machine by the host's next move, the first turn of a run, and the fields of a state with
one context or the host's moves replaced. -/

namespace Sys2Proof.Machine

open Sys2Proof

theorem setMoves_self (s : State) : setMoves s.moves s = s := rfl

/-- What the block does in the system in a turn in which the host drives neither a reset nor a command. -/
def undisturbed (s : State) : Result := onBlock blockUndisturbed s

theorem undisturbed_busy {s : State} (h : s.busy = true) : undisturbed s = engineStep s := by
  simp [undisturbed, onBlock, blockUndisturbed, h, engineStep]

theorem undisturbed_idle {s : State} (h : s.busy = false) : undisturbed s = .next s := by
  simp [undisturbed, onBlock, blockUndisturbed, h, silent, receive]

/-- With no move left the block goes on alone. -/
theorem step_nil {s : State} (h : s.moves = []) : step s = undisturbed s := by
  have e : setMoves [] s = s := by rw [← h]; rfl
  simp only [step, turn, h, movesAfter, e]
  rfl

theorem step_idle {s : State} {ms : List HostMove} (h : s.moves = .idle :: ms) :
    step s = undisturbed (setMoves ms s) := by
  simp only [step, turn, h, movesAfter]
  rfl

/-- A reset puts the block into its reset state and leaves the host all but that move. -/
theorem step_reset {s : State} {ms : List HostMove} (h : s.moves = .reset :: ms) :
    step s = .next { s with toBlock := Block.reset, moves := ms } := by
  simp only [step, turn, h, movesAfter]
  rfl

/-- An offered command is held, given up or accepted. -/
theorem step_offer {s : State} {c : Command} {ms : List HostMove} (h : s.moves = .offer c :: ms) :
    step s = if s.busy then undisturbed s else if s.fault then .next (setMoves ms s)
      else acceptCommand c (setMoves ms s) := by
  have e : setMoves (.offer c :: ms) s = s := by rw [← h]; rfl
  simp only [step, turn, h, movesAfter, List.head?_cons]
  cases hb : s.busy
  · cases hf : s.fault <;> simp [onBlock, blockTurn, acceptCommand, hb, hf, silent_next, receive_silent]
  · simp [onBlock, blockTurn, undisturbed, hb, e]

/-- An accepted command that decodes runs the meaning of its instruction. -/
theorem acceptCommand_ok {c : Command} {i : Instr} (s : State) (h : decode c = .ok i) :
    acceptCommand c s = exec i s := by
  rw [exec_eq]
  simp only [acceptCommand, onBlock, blockAccept, h]

theorem acceptCommand_error {c : Command} {e : Illegal} (s : State) (h : decode c = .error e) :
    acceptCommand c s = .next (faultEntry .illegalCmd s) := by
  simp only [acceptCommand, onBlock, blockAccept, h]
  rfl

/-- An accepted command leaves the moves that follow it alone. -/
theorem exec_moves {i : Instr} {s t : State} (h : exec i s = .next t) : t.moves = s.moves := by
  obtain ⟨o, -, rfl⟩ := exec_next h
  rfl

/-! ### The first turn of a run -/

theorem steps_succ {s t : State} (k : Nat) (h : step s = .next t) : steps (k + 1) s = steps k t := by
  simp only [steps, h]

theorem countTurns_succ {s t : State} (p : State → Bool) (k : Nat) (h : step s = .next t) :
    countTurns p (k + 1) s = (p s).toNat + countTurns p k t := by
  simp only [countTurns, h]

theorem responsesOf_succ {s t : State} (v : Variant) (k : Nat) (h : step s = .next t) :
    responsesOf v (k + 1) s = (if worksOn v s then t.rsps.drop s.rsps.length else []) ++ responsesOf v k t := by
  simp only [responsesOf, h]

/-- An offered command that decodes is an offer on the context of its instruction. -/
theorem offersOn_offer {c : Command} {i : Instr} (v : Variant) (h : decode c = .ok i) :
    offersOn v (.offer c) = (contextOf i == v) := by
  simp only [offersOn, h]

/-- The turns that accept a command. -/
theorem acceptsNow_offer {s : State} {c : Command} {ms : List HostMove} (h : s.moves = .offer c :: ms) :
    acceptsNow s = hostStepEnabled s.toBlock := by
  simp only [acceptsNow, h]

/-- The turns that abandon one. -/
theorem abandonsNow_reset {s : State} {ms : List HostMove} (h : s.moves = .reset :: ms) : abandonsNow s = s.busy := by
  simp only [abandonsNow, h]

/-! ### Replaced fields -/

@[simp] theorem replaceFull_full (f : Option FullCtx) (s : State) : (replaceFull f s).full = f := rfl
@[simp] theorem replaceFull_nc (f : Option FullCtx) (s : State) : (replaceFull f s).nc = s.nc := rfl
@[simp] theorem replaceFull_busy (f : Option FullCtx) (s : State) : (replaceFull f s).busy = s.busy := rfl
@[simp] theorem replaceFull_fault (f : Option FullCtx) (s : State) : (replaceFull f s).fault = s.fault := rfl
@[simp] theorem replaceFull_cause (f : Option FullCtx) (s : State) : (replaceFull f s).cause = s.cause := rfl
@[simp] theorem replaceFull_ri (f : Option FullCtx) (s : State) : (replaceFull f s).ri = s.ri := rfl
@[simp] theorem replaceFull_re (f : Option FullCtx) (s : State) : (replaceFull f s).re = s.re := rfl
@[simp] theorem replaceFull_rv (f : Option FullCtx) (s : State) : (replaceFull f s).rv = s.rv := rfl
@[simp] theorem replaceFull_moves (f : Option FullCtx) (s : State) : (replaceFull f s).moves = s.moves := rfl
@[simp] theorem replaceFull_rsps (f : Option FullCtx) (s : State) : (replaceFull f s).rsps = s.rsps := rfl

@[simp] theorem replaceNc_full (w : Option NcCtx) (s : State) : (replaceNc w s).full = s.full := rfl
@[simp] theorem replaceNc_nc (w : Option NcCtx) (s : State) : (replaceNc w s).nc = w := rfl
@[simp] theorem replaceNc_busy (w : Option NcCtx) (s : State) : (replaceNc w s).busy = s.busy := rfl
@[simp] theorem replaceNc_fault (w : Option NcCtx) (s : State) : (replaceNc w s).fault = s.fault := rfl
@[simp] theorem replaceNc_cause (w : Option NcCtx) (s : State) : (replaceNc w s).cause = s.cause := rfl
@[simp] theorem replaceNc_ri (w : Option NcCtx) (s : State) : (replaceNc w s).ri = s.ri := rfl
@[simp] theorem replaceNc_re (w : Option NcCtx) (s : State) : (replaceNc w s).re = s.re := rfl
@[simp] theorem replaceNc_rv (w : Option NcCtx) (s : State) : (replaceNc w s).rv = s.rv := rfl
@[simp] theorem replaceNc_moves (w : Option NcCtx) (s : State) : (replaceNc w s).moves = s.moves := rfl
@[simp] theorem replaceNc_rsps (w : Option NcCtx) (s : State) : (replaceNc w s).rsps = s.rsps := rfl

@[simp] theorem onlyCommandsOf_full (v : Variant) (s : State) : (onlyCommandsOf v s).full = s.full := rfl
@[simp] theorem onlyCommandsOf_nc (v : Variant) (s : State) : (onlyCommandsOf v s).nc = s.nc := rfl
@[simp] theorem onlyCommandsOf_busy (v : Variant) (s : State) : (onlyCommandsOf v s).busy = s.busy := rfl
@[simp] theorem onlyCommandsOf_fault (v : Variant) (s : State) : (onlyCommandsOf v s).fault = s.fault := rfl
@[simp] theorem onlyCommandsOf_cause (v : Variant) (s : State) : (onlyCommandsOf v s).cause = s.cause := rfl
@[simp] theorem onlyCommandsOf_ri (v : Variant) (s : State) : (onlyCommandsOf v s).ri = s.ri := rfl
@[simp] theorem onlyCommandsOf_re (v : Variant) (s : State) : (onlyCommandsOf v s).re = s.re := rfl
@[simp] theorem onlyCommandsOf_rv (v : Variant) (s : State) : (onlyCommandsOf v s).rv = s.rv := rfl
@[simp] theorem onlyCommandsOf_rsps (v : Variant) (s : State) : (onlyCommandsOf v s).rsps = s.rsps := rfl
@[simp] theorem onlyCommandsOf_moves (v : Variant) (s : State) :
    (onlyCommandsOf v s).moves = s.moves.filter (offersOn v) := rfl

end Sys2Proof.Machine
end

