-- ==== Sys2Proof/Tests/Slice0.lean ====
section
/-! SUPPORT. Tests on fixed values, each from a table or an example of spec/ (named in its comment), and for every
statement with hypotheses a concrete state and operands that meet them together. -/

namespace Sys2Proof.Tests

open Sys2Proof Sys2Proof.Machine

/-! ### Helpers -/

/-- The next state of an outcome, if it is one. -/
def nextOf (r : Result) : Option State :=
  match r with
  | .next s => some s
  | _ => none

/-- The lanes of context F, plane by plane. -/
def fullLanes (s : State) : Option (List (List Lane)) :=
  s.full.map fun c => [c.a.a0.toList, c.a.a1.toList, c.a.a2.toList]

/-- A buffer of `len` bytes, the value's byte `k` being byte `k` of the buffer. -/
def bytes (v : BitVec 384) (len : BitVec 6) : InBuf := { din := v, dinLen := len }

/-- The machine right after reset with one command at the port. -/
def offering (w : BitVec 16) (b : InBuf) (s : State) : State := offerFirst { cmd := w, buf := b } s

/-- Context F at one lane per plane and three rounds, all lanes zero. -/
def f1 : FullCtx := { lpp := 1, nr := 3, a := cubeZero 1 }

/-- Context F at one lane per plane and no rounds. -/
def f0 : FullCtx := { lpp := 1, nr := 0, a := cubeZero 1 }

/-- Context F at four lanes per plane and twelve rounds, all lanes zero. -/
def f4 : FullCtx := { lpp := 4, nr := 12, a := cubeZero 4 }

/-- The sample state `S(2)` of 95_test_vectors in context F. -/
def sample2 : FullCtx :=
  { lpp := 2, nr := 3, a := { a0 := #v[0x9E3779B9, 0x3C6EF372], a1 := #v[0xDAA66D2B, 0x78DDE6E4], a2 := #v[0x1715609D, 0xB54CDA56] } }

/-- The words of `S(1)`. -/
def words1 : NcCtx := { w0 := 0x9E3779B9, w1 := 0x3C6EF372, w2 := 0xDAA66D2B }

/-- Just after reset with context F given. -/
def withF (c : FullCtx) : State := { State.reset with full := some c }

/-- Just after reset with context N given. -/
def withN (w : NcCtx) : State := { State.reset with nc := some w }

/-- Both contexts constructed, the engine idle. -/
def both : State := { State.reset with full := some f1, nc := some words1 }

/-- The last round of a Full permute still to run. -/
def lastRound : State := { both with busy := true, ri := 11, re := 12 }

/-- Rounds 9 to 11 of a Full permute still to run. -/
def threeRounds : State := { both with busy := true, ri := 9, re := 12 }

/-- NC rounds 0 to 2 still to run. -/
def ncRounds : State := { both with busy := true, ri := 0, re := 3, rv := .N }

/-- Stopped by `NO_CONTEXT`, with an `F_DIGEST` still offered. -/
def stopped : State :=
  { both with fault := true, cause := .noContext, moves := [.offer { cmd := 0x6000, buf := InBuf.empty }] }

/-- The state `k` turns later, if no turn stops. -/
def after (k : Nat) (s : State) : State := (nextOf (steps k s)).getD s

/-- `F_GETPLANE 0`, `N_ROUND 11` and `F_DIGEST` to come, with an idle turn between them, both contexts constructed. -/
def interleaved : State :=
  { both with moves := [.offer { cmd := 0x7000, buf := InBuf.empty }, .offer { cmd := 0x480B, buf := InBuf.empty }, .idle,
      .offer { cmd := 0x6000, buf := InBuf.empty }] }

/-- Rounds of a Full permute run, and the host resets the block. -/
def abandoned : State := { threeRounds with moves := [.reset] }

/-! ### Well-formedness: one refused term for each check (R38, R50, R51, R52) -/

theorem test_wf_refuses_zero_lanes : Instr.wellFormed (.fNew 0 12) = false := by decide
theorem test_wf_refuses_five_lanes : Instr.wellFormed (.fLoad 5 12 InBuf.empty) = false := by decide
theorem test_wf_refuses_thirteen_rounds : Instr.wellFormed (.fNew 4 13) = false := by decide
theorem test_wf_refuses_round_index_twelve : Instr.wellFormed (.fRound 12) = false := by decide
theorem test_wf_refuses_nc_round_index_fifteen : Instr.wellFormed (.nRound 15) = false := by decide
theorem test_wf_refuses_plane_three : Instr.wellFormed (.fGetplane 3) = false := by decide
theorem test_wf_refuses_oversized_load : Instr.wellFormed (.fLoad 2 12 (bytes 0 25)) = false := by decide
theorem test_wf_refuses_oversized_absorb : Instr.wellFormed (.fAbsorb (bytes 0 49)) = false := by decide
theorem test_wf_refuses_oversized_nc_load : Instr.wellFormed (.nLoad (bytes 0 13)) = false := by decide
theorem test_wf_refuses_oversized_nc_absorb : Instr.wellFormed (.nAbsorb (bytes 0 13)) = false := by decide
theorem test_wf_admits_the_limits :
    Instr.wellFormed (.fLoad 4 12 (bytes 0 48)) = true ∧ Instr.wellFormed (.fNew 1 0) = true ∧
    Instr.wellFormed (.fRound 11) = true ∧ Instr.wellFormed (.fGetplane 2) = true ∧
    Instr.wellFormed (.nLoad (bytes 0 12)) = true := by decide

/-! ### Decoding: the words written bit by bit, `OP V LPP NR IDX` (R47, R54) -/

theorem test_decode_f_new : decodeTableWord 16 0b0001_0_011_0110_0000 = some (.fNew 3 6) := by decide
theorem test_decode_f_load : decodeTableWord 16 0b0010_0_001_0011_0000 = some (.fLoad 1 3 InBuf.empty) := by decide +kernel
theorem test_decode_f_absorb : decodeTableWord 16 0b0011_0_000_0000_0000 = some (.fAbsorb InBuf.empty) := by decide +kernel
theorem test_decode_f_round : decodeTableWord 16 0b0100_0_000_0000_1010 = some (.fRound 10) := by decide
theorem test_decode_f_permute : decodeTableWord 16 0b0101_0_000_0000_0000 = some .fPermute := by decide
theorem test_decode_f_digest : decodeTableWord 16 0b0110_0_000_0000_0000 = some .fDigest := by decide
theorem test_decode_f_getplane : decodeTableWord 16 0b0111_0_000_0000_0010 = some (.fGetplane 2) := by decide
theorem test_decode_n_init : decodeTableWord 16 0b0001_1_000_0000_0000 = some .nInit := by decide
theorem test_decode_n_load : decodeTableWord 16 0b0010_1_000_0000_0000 = some (.nLoad InBuf.empty) := by decide +kernel
theorem test_decode_n_absorb : decodeTableWord 16 0b0011_1_000_0000_0000 = some (.nAbsorb InBuf.empty) := by decide +kernel
theorem test_decode_n_round : decodeTableWord 16 0b0100_1_000_0000_0010 = some (.nRound 2) := by decide
theorem test_decode_n_permute : decodeTableWord 16 0b0101_1_000_0000_0000 = some .nPermute := by decide
theorem test_decode_n_digest : decodeTableWord 16 0b0110_1_000_0000_0000 = some .nDigest := by decide

/-- Vectors V2, V6, V7, V9, V11 of 95_test_vectors: illegal words. -/
theorem test_decode_refuses :
    decodeTableWord 16 0xFFFF = none ∧ decodeTableWord 16 0x1001 = none ∧ decodeTableWord 16 0x3100 = none ∧
    decodeTableWord 16 0x1900 = none ∧ decodeTableWord 16 0x6801 = none := by decide

/-- The words of programs 3.3 and 3.6, from the encoder. -/
theorem test_encode_words :
    encodeWord (.fLoad 2 3 InBuf.empty) = 0x2230 ∧ encodeWord (.fNew 4 2) = 0x1420 ∧
    encodeWord (.fGetplane 1) = 0x7001 ∧ encodeWord (.nAbsorb InBuf.empty) = 0x3800 := by decide

/-! ### The assembler -/

/-- Program 3.5, line 3. -/
theorem test_script_line_with_bytes :
    assembleLine (.fLoad 13 (some 4) [⟨0x01, 1⟩, ⟨0x02, 1⟩, ⟨0x03, 1⟩, ⟨0x04, 1⟩]) =
      some (.offer { cmd := 0x24D0, buf := bytes 0x04030201 4 }) := by decide +kernel

/-- Scenario S3: a repeated byte. -/
theorem test_script_line_with_a_repeated_byte :
    assembleLine (.nLoad [⟨0xFF, 12⟩]) =
      some (.offer { cmd := 0x2800, buf := bytes 0xFFFFFFFFFFFFFFFFFFFFFFFF 12 }) := by decide +kernel

/-- Program 3.1: `lpp` omitted; a whole script; a line the assembler refuses. -/
theorem test_script_default_and_refusal :
    scriptMoves [.reset, .fNew 12 none] = some [.reset, .offer { cmd := 0x14C0, buf := InBuf.empty }] ∧
    scriptMoves [.reset, .fRound 16] = none ∧
    expandSourceOp .getState = .fDigest := by decide +kernel

/-- The text of program 3.5, line 3, and of program 3.3, line 3; a command whose operand R56 does not allow to be
omitted. -/
theorem test_read_lines :
    readLine "F_LOAD nr=13, lpp=4, hex:01 02 03 04   ; BAD_ROUNDS".toList =
      some (some (.fLoad 13 (some 4) [⟨0x01, 1⟩, ⟨0x02, 1⟩, ⟨0x03, 1⟩, ⟨0x04, 1⟩])) ∧
    readLine "F_ABSORB hex:FF*8       ; restores the state of line 2".toList = some (some (.fAbsorb [⟨0xFF, 8⟩])) ∧
    readLine "F_NEW lpp=4".toList = none := by decide +kernel

/-- R56 allows spaces; a tab is no space of the model's reader (notes/assumptions/17.md), but in a comment. -/
theorem test_read_refuses_a_tab :
    readLine "F_ROUND\t3".toList = none ∧ readLine "N_LOAD hex:01\t02".toList = none ∧
    readLine "F_ROUND  3 ;\tone".toList = some (some (.fRound 3)) := by decide +kernel

/-! ### One step of each command -/

/-- V12: `F_NEW nr=12, lpp=4`. -/
theorem test_f_new_clears_every_lane :
    (nextOf (step (State.reset.withFetchWord 16 0x14C0))).bind fullLanes =
      some [[0, 0, 0, 0], [0, 0, 0, 0], [0, 0, 0, 0]] := by decide

/-- V16: `LPP = 7` and `NR = 15`: the lower code wins. -/
theorem test_f_new_bad_lanes_wins :
    nextOf (step (State.reset.withFetchWord 16 0x17F0)) =
      some { State.reset with fault := true, cause := .badLanes, rsps := [⟨true, .badLanes, []⟩] } := by decide

/-- B2: the fifth byte lands in lane 1 of plane 0 at two lanes per plane. -/
theorem test_f_load_two_lanes :
    (nextOf (step (offering 0x22C0 (bytes 0x0D0C0B0A090807060504030201 13) State.reset))).bind fullLanes =
      some [[0x04030201, 0x08070605], [0x0C0B0A09, 0x0000000D], [0, 0]] := by decide +kernel

/-- V27: `NR` and the length are wrong: `BAD_ROUNDS` wins. -/
theorem test_f_load_bad_rounds_wins :
    (nextOf (step (offering 0x24D0 (bytes 0 60) State.reset))).map (fun s => s.cause) = some .badRounds := by decide

/-- B12: a full buffer of ones into `S(2)`. -/
theorem test_f_absorb_inverts_the_sample :
    (nextOf (exec (.fAbsorb (bytes (BitVec.ofNat 384 (2 ^ 192 - 1)) 24)) (withF sample2))).bind fullLanes =
      some [[0x61C88646, 0xC3910C8D], [0x255992D4, 0x8722191B], [0xE8EA9F62, 0x4AB325A9]] := by decide +kernel

/-- V32: 13 bytes are over the limit of the current `F.LPP = 1`. -/
theorem test_f_absorb_limit_is_the_current_width :
    (nextOf (step (offering 0x3000 (bytes 0 13) (withF f1)))).map (fun s => (s.fault, s.cause)) =
      some (true, .oversize) := by decide

/-- R94: the index is taken as given, whatever `F.NR` is. -/
theorem test_f_round_ignores_nr :
    (nextOf (step ((withF f0).withFetchWord 16 0x400B))).map (fun s => (s.busy, s.ri, s.re, s.rsps)) =
      some (true, 11, 12, []) := by decide

/-- V36: index 12. -/
theorem test_f_round_index_twelve :
    (nextOf (step ((withF f4).withFetchWord 16 0x400C))).map (fun s => (s.busy, s.cause)) =
      some (false, .badRoundIndex) := by decide

/-- R95: three rounds start at index 9. -/
theorem test_f_permute_starts_at_nine :
    (nextOf (step ((withF f1).withFetchWord 16 0x5000))).map (fun s => (s.busy, s.ri, s.re)) =
      some (true, 9, 12) := by decide

/-- Property P4 and program 3.5, line 10: no rounds is the identity and answers at once. -/
theorem test_f_permute_no_rounds :
    (nextOf (step ((withF f0).withFetchWord 16 0x5000))).map (fun s => (s.full, s.busy, s.rsps)) =
      some (some f0, false, [⟨false, .none, []⟩]) := by decide

/-- The bytes of `S(2)` (95_test_vectors, section 2.4), as `F_DIGEST` returns them. -/
theorem test_f_digest_of_the_sample :
    (nextOf (step ((withF sample2).withFetchWord 16 0x6000))).map (fun s => s.rsps.map Response.dout) =
      some [[0xB9, 0x79, 0x37, 0x9E, 0x72, 0xF3, 0x6E, 0x3C, 0x2B, 0x6D, 0xA6, 0xDA, 0xE4, 0xE6, 0xDD, 0x78,
        0x9D, 0x60, 0x15, 0x17, 0x56, 0xDA, 0x4C, 0xB5]] := by decide

/-- V41: the digest of four lanes per plane is 48 bytes. -/
theorem test_f_digest_length :
    (nextOf (step ((withF f4).withFetchWord 16 0x6000))).map (fun s => s.rsps.map doutLen) = some [48] := by decide +kernel

/-- Plane 1 of `S(2)`. -/
theorem test_f_getplane_one :
    (nextOf (step ((withF sample2).withFetchWord 16 0x7001))).map (fun s => s.rsps.map Response.dout) =
      some [[0x2B, 0x6D, 0xA6, 0xDA, 0xE4, 0xE6, 0xDD, 0x78]] := by decide

/-- V45: no context and a bad index: `NO_CONTEXT` wins. -/
theorem test_f_getplane_no_context_wins :
    (nextOf (step (State.reset.withFetchWord 16 0x7003))).map (fun s => s.cause) = some .noContext := by decide

/-- V46: `N_INIT`. -/
theorem test_n_init :
    (nextOf (step (State.reset.withFetchWord 16 0x1800))).bind (fun s => s.nc) = some ⟨0, 0, 0⟩ := by decide

/-- B9: five bytes. -/
theorem test_n_load_five_bytes :
    (nextOf (step (offering 0x2800 (bytes 0xEEDDCCBBAA 5) State.reset))).bind (fun s => s.nc) =
      some ⟨0xDDCCBBAA, 0x000000EE, 0⟩ := by decide +kernel

/-- V48: 13 bytes. -/
theorem test_n_load_oversize :
    (nextOf (step (offering 0x2800 (bytes 0 13) State.reset))).map (fun s => (s.nc, s.cause)) =
      some (none, .oversize) := by decide

/-- B11: five bytes into the words of `S(1)`. -/
theorem test_n_absorb_five_bytes :
    (nextOf (step (offering 0x3800 (bytes 0x0504030201 5) (withN words1)))).bind (fun s => s.nc) =
      some ⟨0x9A347BB8, 0x3C6EF377, 0xDAA66D2B⟩ := by decide +kernel

/-- V50: only context F exists. -/
theorem test_n_absorb_needs_context_n :
    (nextOf (step (offering 0x3800 InBuf.empty (withF f4)))).map (fun s => (s.full, s.cause)) =
      some (some f4, .noContext) := by decide

/-- V52: index 11 is legal for NC too. -/
theorem test_n_round_eleven :
    (nextOf (step ((withN words1).withFetchWord 16 0x480B))).map (fun s => (s.busy, s.rv, s.ri, s.re)) =
      some (true, .N, 11, 12) := by decide

/-- V53: index 12. -/
theorem test_n_round_twelve :
    (nextOf (step ((withN words1).withFetchWord 16 0x480C))).map (fun s => s.cause) = some .badRoundIndex := by decide

/-- R104: NC rounds start at 0. -/
theorem test_n_permute_starts_at_zero :
    (nextOf (step (both.withFetchWord 16 0x5800))).map (fun s => (s.busy, s.rv, s.ri, s.re)) =
      some (true, .N, 0, 3) := by decide

/-- Section 2.5 of 95_test_vectors: rounds 0, 1, 2 of the zero words, and the other end of the schedule on the same
input. -/
theorem test_permutes_are_anchored_apart :
    permuteN ⟨0, 0, 0⟩ = ⟨0x6F45F0FC, 0xE489FB43, 0xEEE7F13B⟩ ∧
    permuteF (cubeZero 1) 3 = ⟨#v[0x8AA0FDF7], #v[0x042944E0], #v[0x7492D4A3]⟩ := by decide

/-- The bytes of `S(1)` as `N_DIGEST` returns them. -/
theorem test_n_digest_of_the_sample :
    (nextOf (step ((withN words1).withFetchWord 16 0x6800))).map (fun s => s.rsps.map Response.dout) =
      some [[0xB9, 0x79, 0x37, 0x9E, 0x72, 0xF3, 0x6E, 0x3C, 0x2B, 0x6D, 0xA6, 0xDA]] := by decide

/-! ### The engine and the port -/

/-- S1: round 0 of the zero state at four lanes per plane. -/
theorem test_round_zero_of_the_zero_state :
    roundF (cubeZero 4) 0 = ⟨#v[0x58, 0, 0, 0], #v[0xB0, 0, 0, 0], #v[0, 0, 0, 0]⟩ := by decide

/-- Section 2.4, `n = 2`: round 3 of `S(2)`. -/
theorem test_round_three_of_the_sample :
    roundF sample2.a 3 = ⟨#v[0xB219F918, 0x59B3E0FD], #v[0x0E9155DE, 0x8E5D52E6], #v[0x67E43FE0, 0x76E7C40A]⟩ := by
  decide

/-- Section 2.4, `n = 3`: round 3 of `S(3)`, where the lane rotations by 1 and by 2 differ. -/
theorem test_round_three_at_three_lanes :
    roundF (⟨#v[0x9E3779B9, 0x3C6EF372, 0xDAA66D2B], #v[0x78DDE6E4, 0x1715609D, 0xB54CDA56],
      #v[0x5384540F, 0xF1BBCDC8, 0x8FF34781]⟩ : Cube 3) 3 =
    ⟨#v[0xE0265F93, 0x93611A7E, 0x16820F63], #v[0x75D97D1C, 0x09FBA2E8, 0x38315DE0],
      #v[0xCAEE75B4, 0xB6F69383, 0x54096831]⟩ := by decide

/-- Section 2.4, `n = 1`: the same numbers for NC. -/
theorem test_nc_round_three_of_the_sample : roundN words1 3 = ⟨0x7C2353FC, 0x64D226B5, 0x30D9E796⟩ := by decide

/-- R83: the engine step at the last index gives the response and clears `BUSY`. -/
theorem test_engine_last_round :
    (nextOf (step lastRound)).map (fun s => (s.busy, s.ri, s.rsps, s.nc)) =
      some (false, 12, [⟨false, .none, []⟩], some words1) := by decide

/-- R133: a command offered while `BUSY = 1` waits. -/
theorem test_offer_waits_while_busy :
    (nextOf (step (threeRounds.withFetchWord 16 0x6000))).map (fun s => (s.moves.length, s.ri, s.rsps)) =
      some (1, 10, []) := by decide

/-- V4: `OP = 7`, `V = 1`. -/
theorem test_get_plane_on_nc :
    (nextOf (step ((withF f4).withFetchWord 16 0x7800))).map (fun s => (s.full, s.cause)) =
      some (some f4, .illegalCmd) := by decide

/-- Program 3.5, line 4: a command offered while `FAULT = 1` is never accepted. -/
theorem test_stopped_takes_no_command :
    (nextOf (step stopped)).map (fun s => (s.moves, s.fault, s.rsps)) = some ([], true, []) := by decide

/-- R130: reset is taken in the middle of a command, which gets no response. -/
theorem test_reset_while_busy :
    nextOf (step { threeRounds with moves := [.reset] }) = some State.reset := by decide

/-! ### Witnesses: the hypotheses of every statement that has some can be met together -/

theorem legal_f1 : FullConfigLegal both := by
  intro c h
  obtain rfl : f1 = c := by simpa [both] using h
  decide

theorem legal_reset : FullConfigLegal State.reset := by
  intro c h
  simp [State.reset, Block.reset] at h

theorem witness_DecodedCommandReencodes :
    decode { cmd := 0x24C0, buf := bytes 0x112233 3 } = .ok (.fLoad 4 12 (bytes 0x112233 3)) ∧
    takesData (.fLoad 4 12 (bytes 0x112233 3)) = true := by decide +kernel

/-- Every clause of the list of illegal words, at a word of its own. -/
theorem witness_IllegalWordsAreExactly :
    (opField 0x0000).toNat = 0 ∧ 8 ≤ (opField 0x8000).toNat ∧
    ((opField 0x7800).toNat = 7 ∧ vField 0x7800 = 1) ∧
    ((opField 0x1001).toNat = 1 ∧ vField 0x1001 = 0 ∧ idxField 0x1001 ≠ 0) ∧
    ((opField 0x4110).toNat = 4 ∧ lppField 0x4110 ≠ 0) ∧
    ((opField 0x5010).toNat = 5 ∧ nrField 0x5010 ≠ 0) ∧
    ((opField 0x1900).toNat = 1 ∧ vField 0x1900 = 1 ∧ lppField 0x1900 ≠ 0) ∧
    (⟨.fNew, 0x1000, 0xF80F⟩ ∈ opcodeMap ∧ rowMatches 0x14C0 ⟨.fNew, 0x1000, 0xF80F⟩ = true) := by decide

/-- Every clause at the ends of its range, data lines of 0, 48, 49, 63 and 64 bytes among them. -/
theorem witness_ScriptLinesAssemble :
    (0 ≤ 15 ∧ 15 ≤ 15 ∧ 0 ≤ 7 ∧ 7 ≤ 7) ∧ (15 < 16 ∨ 7 < 8) ∧
    (hexBytes []).length ≤ 48 ∧ (hexBytes [⟨0xAA, 48⟩]).length ≤ 48 ∧
    (48 < (hexBytes [⟨0xAA, 48⟩, ⟨0x01, 1⟩]).length ∧ (hexBytes [⟨0xAA, 48⟩, ⟨0x01, 1⟩]).length ≤ 63) ∧
    (48 < (hexBytes [⟨0xAA, 63⟩]).length ∧ (hexBytes [⟨0xAA, 63⟩]).length ≤ 63) ∧
    63 < (hexBytes [⟨0xAA, 64⟩]).length ∧
    lineInstr (.fLoad 15 (some 7) []) = some (.fLoad 7 15 InBuf.empty) ∧
    assembleLine .fPermute = some (.offer { cmd := 0x5000, buf := InBuf.empty }) := by decide +kernel

theorem witness_AcceptedCommandRunsItsInstruction :
    (offering 0x5000 InBuf.empty both).moves = .offer { cmd := 0x5000, buf := InBuf.empty } :: [] ∧
    (offering 0x5000 InBuf.empty both).busy = false ∧ (offering 0x5000 InBuf.empty both).fault = false ∧
    decode { cmd := 0x5000, buf := InBuf.empty } = .ok .fPermute := by decide +kernel

theorem witness_IllegalWordRaisesIllegalCmd :
    (offering 0xFFFF InBuf.empty both).moves = .offer { cmd := 0xFFFF, buf := InBuf.empty } :: [] ∧
    (offering 0xFFFF InBuf.empty both).busy = false ∧ (offering 0xFFFF InBuf.empty both).fault = false ∧
    decode { cmd := 0xFFFF, buf := InBuf.empty } = .error .noSuchOp := by decide +kernel

theorem witness_NcHasNoGetPlaneAndNoConfiguration :
    ((offering 0x7801 InBuf.empty both).moves = .offer { cmd := 0x7801, buf := InBuf.empty } :: [] ∧
      (offering 0x7801 InBuf.empty both).busy = false ∧ (offering 0x7801 InBuf.empty both).fault = false ∧
      (opField 0x7801).toNat = 7 ∧ vField 0x7801 = 1) ∧
    isFull .nPermute = false ∧ (nextOf (exec .nPermute both)).isSome = true := by decide +kernel

/-- `BUSY = 1` with no move and with an offer; an engine step that answers; `BUSY = 0` idle. -/
theorem witness_BusyBlockHoldsTheOffer :
    (threeRounds.busy = true ∧ HostWaits threeRounds) ∧
    ((offering 0x6000 InBuf.empty threeRounds).busy = true ∧ HostWaits (offering 0x6000 InBuf.empty threeRounds)) ∧
    (nextOf (engineStep threeRounds)).isSome = true ∧
    (both.busy = false ∧ both.moves = []) ∧
    ({ both with moves := [.idle] }.busy = false ∧ { both with moves := [HostMove.idle] }.moves = .idle :: []) :=
  ⟨⟨rfl, .inl rfl⟩, ⟨rfl, .inr ⟨_, _, rfl⟩⟩, by decide, ⟨rfl, rfl⟩, ⟨rfl, rfl⟩⟩

/-- A round that is not the last, the last round (`RI = 11`), and an NC round (`RI = 0`). -/
theorem witness_EngineStepDoesOneRound :
    (threeRounds.ri.toNat < 12 ∧ threeRounds.rv = .F ∧ threeRounds.full = some f1 ∧ threeRounds.ri + 1 ≠ threeRounds.re) ∧
    (lastRound.ri.toNat < 12 ∧ lastRound.rv = .F ∧ lastRound.full = some f1 ∧ lastRound.ri + 1 = lastRound.re) ∧
    (ncRounds.ri.toNat < 12 ∧ ncRounds.rv = .N ∧ ncRounds.nc = some words1) ∧
    (threeRounds.busy = true ∧ HostWaits threeRounds) :=
  ⟨by decide, by decide, by decide, rfl, .inl rfl⟩

theorem witness_FaultHoldsUntilReset :
    (stopped.busy = false ∧ stopped.fault = true ∧ .reset ∉ stopped.moves) ∧
    { stopped with moves := [.reset, .idle] }.moves = .reset :: [.idle] := by decide

theorem witness_ResetIsTakenInEveryState :
    { threeRounds with moves := [HostMove.reset] }.moves = .reset :: [] ∧ threeRounds.busy = true := ⟨rfl, rfl⟩

theorem witness_PlacedWordRunsNext :
    both.busy = false ∧ both.fault = false ∧ decodeTableWord 16 0x480B = some (.nRound 11) := by decide

/-- States that meet the invariants of R19: after reset, while rounds run, and stopped. -/
theorem witness_StepKeepsTheInvariants :
    ControllerInv State.reset ∧ ControllerInv threeRounds ∧ ControllerInv stopped := by
  refine ⟨⟨by simp [BusyFaultExclusive, State.reset, Block.reset], ?_, legal_reset, ?_⟩, ⟨?_, ?_, legal_f1, ?_⟩,
    ⟨?_, ?_, legal_f1, ?_⟩⟩
  · intro h; simp [State.reset, Block.reset] at h
  · simp [CauseIffFault, State.reset, Block.reset]
  · simp [BusyFaultExclusive, threeRounds, both, State.reset, Block.reset]
  · intro _; decide
  · simp [CauseIffFault, threeRounds, both, State.reset, Block.reset]
  · simp [BusyFaultExclusive, stopped, both, State.reset, Block.reset]
  · intro h; simp [stopped, both, State.reset, Block.reset] at h
  · simp [CauseIffFault, stopped]

/-- One step from reset with `F_NEW nr=3, lpp=1` offered. -/
theorem witness_ReachableStatesMeetTheInvariants :
    nextOf (steps 1 (setMoves [.offer { cmd := 0x1130, buf := InBuf.empty }] State.reset)) =
      some { withF f1 with rsps := [okResponse []] } := by decide

/-- The lane count at both ends of its range, the round count at both ends, a lane below and one past `LPP`. -/
theorem witness_FNewConstructsTheZeroState :
    (1 ≤ (1 : BitVec 3).toNat ∧ (1 : BitVec 3).toNat ≤ 4 ∧ (0 : BitVec 4).toNat ≤ 12) ∧
    (1 ≤ (4 : BitVec 3).toNat ∧ (4 : BitVec 3).toNat ≤ 4 ∧ (12 : BitVec 4).toNat ≤ 12) ∧
    0 < (1 : BitVec 3).toNat ∧ (1 : BitVec 3).toNat ≤ 1 := by decide

/-- The buffer length at its limit for one and for four lanes. -/
theorem witness_FLoadConstructsTheStateOfTheBytes :
    (1 ≤ (1 : BitVec 3).toNat ∧ (1 : BitVec 3).toNat ≤ 4 ∧ (0 : BitVec 4).toNat ≤ 12 ∧
      (bytes 0 12).dinLen.toNat ≤ 12 * (1 : BitVec 3).toNat) ∧
    (1 ≤ (4 : BitVec 3).toNat ∧ (4 : BitVec 3).toNat ≤ 4 ∧ (12 : BitVec 4).toNat ≤ 12 ∧
      (bytes 0 48).dinLen.toNat ≤ 12 * (4 : BitVec 3).toNat) ∧
    3 < (4 : BitVec 3).toNat ∧ (4 : BitVec 3).toNat ≤ 4 := by decide

theorem witness_FAbsorbXorsTheBytes :
    (withF sample2).full = some sample2 ∧ (bytes 0 24).dinLen.toNat ≤ 12 * sample2.lpp.toNat ∧
    fullLane sample2 2 1 = some 0xB54CDA56 ∧ sample2.lpp.toNat ≤ 2 := by decide

theorem witness_FRoundStartsOneRound :
    (withF f0).full = some f0 ∧ (0 : BitVec 4).toNat ≤ 11 ∧ (11 : BitVec 4).toNat ≤ 11 := by decide

/-- No rounds, and the most rounds. -/
theorem witness_FPermuteStartsAtTwelveMinusNr :
    ((withF f0).full = some f0 ∧ f0.nr = 0 ∧ f0.nr.toNat ≤ 12) ∧
    ((withF f4).full = some f4 ∧ f4.nr ≠ 0 ∧ f4.nr.toNat ≤ 12) := by decide

theorem witness_FDigestSerialisesTheState : (withF sample2).full = some sample2 := rfl

theorem witness_FGetplaneSerialisesOnePlane :
    (0 : BitVec 4).toNat < 3 ∧ (2 : BitVec 4).toNat < 3 ∧ (withF sample2).full = some sample2 := by decide

theorem witness_NLoadConstructsTheWordsOfTheBytes :
    (bytes 0 0).dinLen.toNat ≤ 12 ∧ (bytes 0 12).dinLen.toNat ≤ 12 := by decide

theorem witness_NAbsorbXorsTheBytes :
    (withN words1).nc = some words1 ∧ (bytes 0 12).dinLen.toNat ≤ 12 := by decide

theorem witness_NRoundStartsOneRound :
    (withN words1).nc = some words1 ∧ (0 : BitVec 4).toNat ≤ 11 ∧ (11 : BitVec 4).toNat ≤ 11 := by decide

theorem witness_NPermuteStartsAtZero : (withN words1).nc = some words1 := rfl

theorem witness_NDigestSerialisesTheWords : (withN words1).nc = some words1 := rfl

/-- Every clause at the values next to its bound. -/
theorem witness_FullCommandFaults :
    ¬LegalLanes 0 ∧ ¬LegalLanes 5 ∧ (LegalLanes 1 ∧ LegalLanes 4 ∧ ¬LegalRounds 13) ∧
    (LegalLanes 2 ∧ LegalRounds 12 ∧ 12 * (2 : BitVec 3).toNat < (bytes 0 25).dinLen.toNat) ∧
    State.reset.full = none ∧ (withF f1).full = some f1 ∧ 12 * f1.lpp.toNat < (bytes 0 13).dinLen.toNat ∧
    11 < (12 : BitVec 4).toNat ∧ 2 < (3 : BitVec 4).toNat := by decide

theorem witness_NcCommandFaults :
    12 < (bytes 0 13).dinLen.toNat ∧ State.reset.nc = none ∧ (withN words1).nc = some words1 ∧
    11 < (12 : BitVec 4).toNat := by decide

/-- An accepted command that faults, one that answers, one that starts rounds. -/
theorem witness_FaultEntryWritesNothingElse :
    (nextOf (acceptCommand { cmd := 0x6000, buf := InBuf.empty } State.reset)).isSome = true ∧
    (nextOf (acceptCommand { cmd := 0x6000, buf := InBuf.empty } both)).isSome = true ∧
    (nextOf (acceptCommand { cmd := 0x5000, buf := InBuf.empty } both)).isSome = true := by decide

theorem witness_OnlyListedCausesArise :
    exec .fDigest State.reset = .next (faultEntry .noContext State.reset) ∧
    exec (.fRound 12) both = .next (faultEntry .badRoundIndex both) := ⟨rfl, rfl⟩

theorem witness_IllFormedCommandsFault : FullConfigLegal both ∧ Instr.wellFormed (.fAbsorb (bytes 0 49)) = false :=
  ⟨legal_f1, by decide⟩

theorem witness_WellFormedCommandsDoNotFault :
    Instr.wellFormed (.fAbsorb (bytes 0 12)) = true ∧ addressed (.fAbsorb (bytes 0 12)) both = true ∧
    (∀ buf c, Instr.fAbsorb (bytes 0 12) = .fAbsorb buf → both.full = some c → buf.dinLen.toNat ≤ 12 * c.lpp.toNat) := by
  refine ⟨by decide, by decide, ?_⟩
  intro buf c hb hc
  obtain rfl : bytes 0 12 = buf := by simpa using hb
  obtain rfl : f1 = c := by simpa [both] using hc
  decide

/-- A command that writes neither context and starts no rounds, and one that does start rounds. -/
theorem witness_CommandFrames :
    ((nextOf (exec .fDigest both)).isSome = true ∧ writesFull .fDigest = false ∧ writesNc .fDigest = false ∧
      startsRounds .fDigest = false) ∧
    ((nextOf (exec .nPermute both)).isSome = true ∧ writesFull .nPermute = false ∧ writesNc .nPermute = false) := by
  decide

theorem witness_ConfigurationChangesOnlyByConstruction :
    both.full = some f1 ∧ (nextOf (step (offering 0x5000 InBuf.empty both))).isSome = true ∧
    (∀ ms, (offering 0x5000 InBuf.empty both).moves ≠ .reset :: ms) ∧
    (∀ cmd ms lpp nr buf, (offering 0x5000 InBuf.empty both).moves = .offer cmd :: ms →
      decode cmd ≠ .ok (.fNew lpp nr) ∧ decode cmd ≠ .ok (.fLoad lpp nr buf)) := by
  refine ⟨rfl, by decide, by simp [offering, offerFirst], ?_⟩
  intro cmd ms lpp nr buf h
  have hc : cmd = { cmd := 0x5000, buf := InBuf.empty } := by
    simp only [offering, offerFirst, setMoves_moves, List.cons.injEq, HostMove.offer.injEq] at h
    exact h.1.symm
  have hd : decode cmd = .ok .fPermute := by rw [hc]; decide
  rw [hd]
  exact ⟨by simp, by simp⟩

/-- A run of both contexts without a fault and without a reset; each context gets its own responses in it. -/
theorem undisturbed_interleaved :
    UndisturbedRun 4 interleaved (after 4 interleaved) ∧
    (responsesOf .F 4 interleaved).length = 2 ∧ (responsesOf .N 4 interleaved).length = 1 :=
  ⟨⟨rfl, rfl, by decide, by decide +kernel, by decide +kernel, by decide +kernel⟩, by decide +kernel, by decide +kernel⟩

theorem decode_permutes :
    decode { cmd := 0x5800, buf := InBuf.empty } = .ok .nPermute ∧
    decode { cmd := 0x5000, buf := InBuf.empty } = .ok .fPermute := by decide

/-- Rounds of the one context run while a command of the same context is offered, for both contexts; and a run of
interleaved commands. -/
theorem witness_ContextsDoNotInterfere :
    ((ncRounds.busy = true → ncRounds.rv = .N) ∧ .reset ∉ (offering 0x5800 InBuf.empty ncRounds).moves ∧
      (∀ c, .offer c ∈ (offering 0x5800 InBuf.empty ncRounds).moves → ∀ i, decode c = .ok i → isFull i = false)) ∧
    ((threeRounds.busy = true → threeRounds.rv = .F) ∧ .reset ∉ (offering 0x5000 InBuf.empty threeRounds).moves ∧
      (∀ c, .offer c ∈ (offering 0x5000 InBuf.empty threeRounds).moves → ∀ i, decode c = .ok i → isFull i = true)) ∧
    UndisturbedRun 4 interleaved (after 4 interleaved) := by
  refine ⟨⟨fun _ => rfl, by decide, ?_⟩, ⟨fun _ => rfl, by decide, ?_⟩, undisturbed_interleaved.1⟩
  · intro c h i hi
    obtain rfl : c = { cmd := 0x5800, buf := InBuf.empty } := by
      simpa [offering, offerFirst, ncRounds, both, State.reset] using h
    rw [decode_permutes.1] at hi
    cases hi
    rfl
  · intro c h i hi
    obtain rfl : c = { cmd := 0x5000, buf := InBuf.empty } := by
      simpa [offering, offerFirst, threeRounds, both, State.reset] using h
    rw [decode_permutes.2] at hi
    cases hi
    rfl

/-- No rounds and twelve rounds, the engine idle, the host waiting. -/
theorem witness_FPermuteRunsTheLastRounds :
    ((withF f0).full = some f0 ∧ f0.nr.toNat ≤ 12 ∧ (withF f0).busy = false ∧ HostWaits (withF f0)) ∧
    ((withF f4).full = some f4 ∧ f4.nr.toNat ≤ 12 ∧ (withF f4).busy = false ∧ HostWaits (withF f4)) :=
  ⟨⟨rfl, by decide, rfl, .inl rfl⟩, ⟨rfl, by decide, rfl, .inl rfl⟩⟩

theorem witness_PermuteIsAnchoredAtTheTail : 0 < 12 ∧ 11 < 12 := by decide

theorem witness_NPermuteRunsTheFirstRounds :
    both.nc = some words1 ∧ both.busy = false ∧ HostWaits both := ⟨rfl, rfl, .inl rfl⟩

theorem witness_SingleRoundCommandsRunOneRound :
    (11 : BitVec 4).toNat < 12 ∧ both.full = some f1 ∧ both.nc = some words1 ∧ both.busy = false ∧ HostWaits both :=
  ⟨by decide, rfl, rfl, rfl, .inl rfl⟩

theorem witness_BusyFallsAfterTheRemainingRounds :
    ControllerInv threeRounds ∧ threeRounds.busy = true ∧ HostWaits threeRounds ∧
    2 < threeRounds.re.toNat - threeRounds.ri.toNat :=
  ⟨witness_StepKeepsTheInvariants.2.1, rfl, .inl rfl, by decide⟩

/-- Running and stopped states, without a reset; R141: a run that ends well, one that ends badly, and one in which a
reset abandons the running command, which has then ended neither way. -/
theorem witness_EveryRunEnds :
    (ControllerInv threeRounds ∧ ControllerInv stopped) ∧ .reset ∉ threeRounds.moves ∧
    EndedWell 3 threeRounds (after 3 threeRounds) ∧ EndedBadly 1 stopped (after 1 stopped) ∧
    countTurns abandonsNow 1 abandoned = 1 ∧ ¬EndedWell 1 abandoned (after 1 abandoned) :=
  ⟨witness_StepKeepsTheInvariants.2, by decide,
    ⟨rfl, by decide +kernel, by decide +kernel, by decide +kernel, by decide +kernel⟩,
    ⟨rfl, by decide, by decide⟩, by decide, fun h => absurd h.answered (by decide)⟩

/-- A command accepted; rounds running; a fault with a command still offered; nothing offered. Each answers a next
state, which the last clause needs too. -/
theorem witness_EveryCommandGetsOneResponse :
    ((offering 0x5000 InBuf.empty both).moves = .offer { cmd := 0x5000, buf := InBuf.empty } :: [] ∧
      both.busy = false ∧ both.fault = false ∧ (nextOf (step (offering 0x5000 InBuf.empty both))).isSome = true) ∧
    (threeRounds.busy = true ∧ (∀ ms, threeRounds.moves ≠ .reset :: ms) ∧ (nextOf (step threeRounds)).isSome = true) ∧
    (stopped.busy = false ∧ stopped.fault = true ∧ (nextOf (step stopped)).isSome = true) ∧
    (both.busy = false ∧ (∀ c ms, both.moves ≠ .offer c :: ms) ∧ (nextOf (step both)).isSome = true) := by
  refine ⟨by decide +kernel, ⟨rfl, ?_, by decide +kernel⟩, by decide +kernel, ⟨rfl, ?_, by decide +kernel⟩⟩
  · simp [threeRounds, both, State.reset]
  · simp [both, State.reset]

/-- A bit position below 32, and rotations by multiples of 32. -/
theorem witness_RotationMovesEachBit : 31 < 32 ∧ (-32 : Int) % 32 = 0 ∧ (64 : Int) % 32 = 0 := by decide

/-- Lane 0 of four comes from lane 3 in a shift by 1, and lane 3 goes to lane 1 in a shift by 2. -/
theorem witness_PlaneShiftMovesLanes :
    (((3 : Fin 4).val : Int) = (((0 : Fin 4).val : Int) - 1) % 4) ∧
    (((1 : Fin 4).val : Int) = (((3 : Fin 4).val : Int) + 2) % 4) := by decide

/-- The source positions at three lanes per plane. -/
theorem witness_RoundLaneByLane :
    (∀ x : Fin 3, ((#v[(2 : Fin 3), 0, 1][x]).val : Int) = ((x.val : Int) - 1) % 3) ∧
    (∀ x : Fin 3, ((#v[(1 : Fin 3), 2, 0][x]).val : Int) = ((x.val : Int) - 2) % 3) := by decide

/-- A state that is not zero and whose column parity is. -/
theorem witness_ThetaIsLinear :
    thetaParity (⟨#v[1, 1], #v[1, 1], #v[0, 0]⟩ : Cube 2) = planeZero 2 := by decide

theorem witness_ChiTableAndInvolution : 0 < 32 ∧ 31 < 32 := by decide

/-- Byte 3 of a group, and a group wholly past the buffer. -/
theorem witness_MemReadIsLittleEndian : 3 < 4 ∧ (bytes 0 13).dinLen.toNat ≤ 16 := by decide

/-- Two buffers that differ only past `din_len`. -/
theorem witness_UnsuppliedBytesAreIgnored :
    (decode { cmd := 0x5000, buf := bytes 0x55 1 } = .ok .fPermute ∧ takesData .fPermute = false) ∧
    (bytes 0x0201 1).dinLen = (bytes 0x0301 1).dinLen ∧
    (∀ k, k < (bytes 0x0201 1).dinLen.toNat →
      (bytes 0x0201 1).din.extractLsb' (8 * k) 8 = (bytes 0x0301 1).din.extractLsb' (8 * k) 8) := by decide +kernel

theorem witness_PlaneBytesRoundTrip : ([0xAA, 0xBB, 0xCC, 0xDD, 0xEE] : List Byte).length ≤ 4 * 2 := by decide

theorem witness_DigestByteMap : fullLane sample2 2 1 = some 0xB54CDA56 ∧ 3 < 4 := by decide

/-- The limits of the four laws. -/
theorem witness_ByteInterfaceLaws :
    (1 ≤ (4 : BitVec 3).toNat ∧ (4 : BitVec 3).toNat ≤ 4 ∧ (12 : BitVec 4).toNat ≤ 12 ∧
      (bytes 0 48).dinLen.toNat ≤ 12 * (4 : BitVec 3).toNat) ∧
    (bytes 0 12).dinLen.toNat ≤ 12 ∧
    ((withF sample2).full = some sample2 ∧ (bytes 0 24).dinLen.toNat ≤ 12 * sample2.lpp.toNat) ∧
    (withN words1).nc = some words1 := by decide

theorem witness_EmptyLoadIsTheZeroConstructor : (bytes 0x55 0).dinLen = 0 := rfl

end Sys2Proof.Tests
end

section
/-! PROOFS. What leaves `F.LPP` and `F.NR` alone (rules R7, R14): a command that does not write context F, `F_ABSORB`,
the engine step, and so every step that is no reset and accepts no `F_NEW` or `F_LOAD`. -/

namespace Sys2Proof.Machine

open Sys2Proof

/-! ### The commands that do not write context F (R24) -/

/-- Whatever next block the outcome answers has context F as it was. -/
def KeepsFull (b : Block) (r : BlockResult) : Prop := ∀ o, r = .next o → o.block.full = b.full

theorem keepsFull_raiseFault (k : Cause) (b : Block) : KeepsFull b (raiseFault k b) := by
  rintro o ⟨⟩
  rfl

theorem keepsFull_complete {b b' : Block} (d : List Byte) (h : b'.full = b.full) : KeepsFull b (complete d b') := by
  rintro o ⟨⟩
  exact h

theorem keepsFull_startRounds (v : Variant) (x y : BitVec 4) (b : Block) : KeepsFull b (startRounds v x y b) := by
  rintro o ⟨⟩
  rfl

theorem keepsFull_withFull {b : Block} {k : FullCtx → BlockResult} (hk : ∀ c, KeepsFull b (k c)) :
    KeepsFull b (withFull b k) := by
  cases h : b.full with
  | none => rw [withFull_none h]; exact keepsFull_raiseFault _ b
  | some c => rw [withFull_some h]; exact hk c

theorem keepsFull_withNc {b : Block} {k : NcCtx → BlockResult} (hk : ∀ w, KeepsFull b (k w)) :
    KeepsFull b (withNc b k) := by
  cases h : b.nc with
  | none => rw [withNc_none h]; exact keepsFull_raiseFault _ b
  | some w => rw [withNc_some h]; exact hk w

/-- A check that raises a fault, before a continuation that keeps context F. -/
theorem keepsFull_check {p : Prop} [Decidable p] {k : Cause} {b : Block} {r : BlockResult} (hr : KeepsFull b r) :
    KeepsFull b (if p then raiseFault k b else r) := by
  split
  · exact keepsFull_raiseFault k b
  · exact hr

theorem blockExec_keepsFull {i : Instr} (hw : writesFull i = false) (b : Block) : KeepsFull b (blockExec i b) := by
  cases i with
  | fNew | fLoad | fAbsorb => cases hw
  | fRound idx => exact keepsFull_withFull fun _ => keepsFull_check (keepsFull_startRounds _ _ _ b)
  | fPermute =>
    refine keepsFull_withFull fun c => ?_
    split
    · exact keepsFull_complete _ rfl
    · exact keepsFull_startRounds _ _ _ b
  | fDigest => exact keepsFull_withFull fun _ => keepsFull_complete _ rfl
  | fGetplane p =>
    refine keepsFull_withFull fun c => ?_
    split
    · exact keepsFull_complete _ rfl
    · exact keepsFull_raiseFault _ b
  | nInit => exact keepsFull_complete _ rfl
  | nLoad buf => exact keepsFull_check (keepsFull_complete _ rfl)
  | nAbsorb buf => exact keepsFull_withNc fun _ => keepsFull_check (keepsFull_complete _ rfl)
  | nRound idx => exact keepsFull_withNc fun _ => keepsFull_check (keepsFull_startRounds _ _ _ b)
  | nPermute => exact keepsFull_withNc fun _ => keepsFull_startRounds _ _ _ b
  | nDigest => exact keepsFull_withNc fun _ => keepsFull_complete _ rfl

/-- A command that does not write context F leaves it as it was, in the system (R24). -/
theorem exec_full_of_writesFull_false {i : Instr} {s t : State} (hw : writesFull i = false)
    (h : exec i s = .next t) : t.full = s.full := by
  rw [exec_eq] at h
  obtain ⟨o, ho, rfl⟩ := onBlock_inv h
  exact blockExec_keepsFull hw s.toBlock o ho

/-! ### `F.LPP` and `F.NR` -/

/-- `F.LPP` and `F.NR` are the same in both blocks, or hold no value in both (R14). -/
def SameConfiguration (b b' : Block) : Prop := fLpp b' = fLpp b ∧ fNr b' = fNr b

theorem sameConfiguration_of_full {b b' : Block} (h : b'.full = b.full) : SameConfiguration b b' :=
  ⟨congrArg (Option.map FullCtx.lpp) h, congrArg (Option.map FullCtx.nr) h⟩

theorem sameConfiguration_setLanes {b : Block} {c : FullCtx} (h : b.full = some c) (a : Cube c.lpp.toNat) :
    SameConfiguration b (setFull (setLanes c a) b) := by
  simp [SameConfiguration, fLpp, fNr, h]

/-- A constructed context whose configuration is kept stays constructed, with it. -/
theorem SameConfiguration.full_eq {b b' : Block} {c : FullCtx} (h : SameConfiguration b b') (hc : b.full = some c) :
    ∃ d, b'.full = some d ∧ d.lpp = c.lpp ∧ d.nr = c.nr := by
  obtain ⟨hl, hn⟩ := h
  simp only [fLpp, fNr, hc, Option.map_some] at hl hn
  obtain ⟨d, hd, hlpp⟩ := Option.map_eq_some_iff.1 hl
  exact ⟨d, hd, hlpp, by simpa [hd] using hn⟩

/-- `F_ABSORB` replaces lanes, or it faults (R93). -/
theorem blockFAbsorb_sameConfiguration {buf : InBuf} {b : Block} {o : BlockStep} (h : blockFAbsorb buf b = .next o) :
    SameConfiguration b o.block := by
  cases hc : b.full with
  | none =>
    rw [blockFAbsorb, withFull_none hc] at h
    exact sameConfiguration_of_full (keepsFull_raiseFault _ b o h)
  | some c =>
    rw [blockFAbsorb, withFull_some hc] at h
    split at h
    · exact sameConfiguration_of_full (keepsFull_raiseFault _ b o h)
    · cases h
      exact sameConfiguration_setLanes hc _

/-- Every command but the two that construct context F keeps the configuration. -/
theorem exec_sameConfiguration {i : Instr} {s t : State} (hNew : ∀ lpp nr, i ≠ .fNew lpp nr)
    (hLoad : ∀ lpp nr buf, i ≠ .fLoad lpp nr buf) (h : exec i s = .next t) :
    SameConfiguration s.toBlock t.toBlock := by
  cases hw : writesFull i with
  | false => exact sameConfiguration_of_full (exec_full_of_writesFull_false hw h)
  | true =>
    cases i with
    | fNew lpp nr => exact absurd rfl (hNew lpp nr)
    | fLoad lpp nr buf => exact absurd rfl (hLoad lpp nr buf)
    | fAbsorb buf =>
      obtain ⟨o, ho, rfl⟩ := onBlock_inv h
      exact blockFAbsorb_sameConfiguration ho
    | _ => cases hw

/-- An accepted word that decodes to neither constructing command keeps the configuration; an illegal one only
faults. -/
theorem acceptCommand_sameConfiguration {c : Command} {s t : State} (hNew : ∀ lpp nr, decode c ≠ .ok (.fNew lpp nr))
    (hLoad : ∀ lpp nr buf, decode c ≠ .ok (.fLoad lpp nr buf)) (h : acceptCommand c s = .next t) :
    SameConfiguration s.toBlock t.toBlock := by
  cases hd : decode c with
  | ok i =>
    rw [acceptCommand_ok s hd] at h
    exact exec_sameConfiguration (fun lpp nr e => hNew lpp nr (e ▸ hd))
      (fun lpp nr buf e => hLoad lpp nr buf (e ▸ hd)) h
  | error e =>
    rw [acceptCommand_error s hd] at h
    cases h
    exact sameConfiguration_of_full rfl

theorem undisturbed_sameConfiguration {s t : State} (h : undisturbed s = .next t) :
    SameConfiguration s.toBlock t.toBlock := by
  cases hb : s.busy with
  | true =>
    have frame := engineStep_frame (undisturbed_busy hb ▸ h)
    exact ⟨frame.lpp, frame.nr⟩
  | false =>
    rw [undisturbed_idle hb] at h
    cases h
    exact sameConfiguration_of_full rfl

/-- The configuration is kept by every step whose move is no reset and offers neither constructing command. -/
theorem step_sameConfiguration {s t : State} (h : step s = .next t) (hReset : ∀ ms, s.moves ≠ .reset :: ms)
    (hOffer : ∀ c ms lpp nr buf, s.moves = .offer c :: ms →
      decode c ≠ .ok (.fNew lpp nr) ∧ decode c ≠ .ok (.fLoad lpp nr buf)) :
    SameConfiguration s.toBlock t.toBlock := by
  match hm : s.moves with
  | [] => exact undisturbed_sameConfiguration (step_nil hm ▸ h)
  | .idle :: ms => exact undisturbed_sameConfiguration (s := setMoves ms s) (step_idle hm ▸ h)
  | .reset :: ms => exact absurd hm (hReset ms)
  | .offer c :: ms =>
    rw [step_offer hm] at h
    split at h
    · exact undisturbed_sameConfiguration h
    split at h
    · cases h
      exact sameConfiguration_of_full rfl
    · exact acceptCommand_sameConfiguration (s := setMoves ms s)
        (fun lpp nr => (hOffer c ms lpp nr InBuf.empty hm).1) (fun lpp nr buf => (hOffer c ms lpp nr buf hm).2) h

/-- Settles O38: the configuration is kept by every such step, so the context stays constructed with it. -/
theorem configurationChangesOnlyByConstruction : Obligations.ConfigurationChangesOnlyByConstruction := by
  intro s t c hc h hReset hOffer
  exact (step_sameConfiguration h hReset hOffer).full_eq hc

end Sys2Proof.Machine
end

section
/-! PROOFS. The assembler of command scripts (rules R7, R56): the fields and the buffer of a line, and that an offered
line decodes to the command it names. -/

namespace Sys2Proof.Machine

open Sys2Proof

/-! ### The offered word -/

/-- The row of an encoded instruction is its own, so the decoder takes the operands back out of their fields (R54). -/
theorem decode_encode (i : Instr) : decode (encode i) = .ok i := by
  cases i <;> simp [decode, selectRow_fields, encode, encodeWord, encodeBuf, buildInstr]

theorem assembleLine_eq {l : ScriptLine} (h : l ≠ .reset) :
    assembleLine l = (lineInstr l).map fun i => .offer (encode i) := by
  cases l with
  | reset => exact absurd rfl h
  | _ => rfl

/-- A refused operand refuses the line. -/
theorem assembleLine_eq_none {l : ScriptLine} (h : l ≠ .reset) (hl : lineInstr l = none) : assembleLine l = none := by
  rw [assembleLine_eq h, hl, Option.map_none]

/-- A line is offered exactly when it names a command, and what is offered is that command's encoding. -/
theorem assembleLine_eq_offer_iff {l : ScriptLine} {c : Command} :
    assembleLine l = some (.offer c) ↔ ∃ i, lineInstr l = some i ∧ encode i = c := by
  by_cases h : l = .reset
  · subst h
    simp [assembleLine, lineInstr]
  · simp [assembleLine_eq h]

/-! ### The operand fields -/

theorem configFields_of_le {nr lpp : Nat} (hn : nr ≤ 15) (hl : lpp ≤ 7) :
    configFields nr (some lpp) = some (BitVec.ofNat 3 lpp, BitVec.ofNat 4 nr) :=
  if_pos ⟨hn, hl⟩

theorem configFields_of_lt {nr lpp : Nat} (h : 15 < nr ∨ 7 < lpp) : configFields nr (some lpp) = none :=
  if_neg (by rw [Option.getD_some]; omega)

theorem indexField_of_le {i : Nat} (h : i ≤ 15) : indexField i = some (BitVec.ofNat 4 i) := if_pos h

theorem indexField_of_lt {i : Nat} (h : 15 < i) : indexField i = none := if_neg (by omega)

/-- A field keeps a number up to its greatest value `m`. -/
theorem toNat_ofNat_of_le {w n m : Nat} (h : n ≤ m) (hm : m < 2 ^ w) : (BitVec.ofNat w n).toNat = n :=
  by rw [BitVec.toNat_ofNat, Nat.mod_eq_of_lt (by omega)]

/-! ### The input buffer of a data line -/

/-- Byte `k` of the packed number, counted in base 256, is byte `k` of the list. -/
theorem packBytes_digit (bs : List Byte) (k : Nat) : packBytes bs / 256 ^ k % 256 = (bs.getD k 0).toNat := by
  induction bs generalizing k with
  | nil => simp [packBytes]
  | cons b bs ih =>
    have hb : b.toNat < 256 := b.isLt
    cases k with
    | zero => simp only [packBytes, pow_zero, List.getD_cons_zero]; omega
    | succ k =>
      have hdiv : (b.toNat + 256 * packBytes bs) / 256 = packBytes bs := by omega
      rw [packBytes, pow_succ', ← Nat.div_div_eq_div_mul, hdiv, ih, List.getD_cons_succ]

/-- Byte `k` of the packed word, as long as the word holds it. -/
theorem packBytes_byte (bs : List Byte) {k : Nat} (hk : k < 48) :
    (BitVec.ofNat 384 (packBytes bs)).extractLsb' (8 * k) 8 = bs.getD k 0 := by
  apply BitVec.eq_of_getLsbD_eq
  intro j hj
  have hdigit : packBytes bs / 2 ^ (8 * k) % 2 ^ 8 = (bs.getD k 0).toNat := by
    rw [pow_mul]
    exact packBytes_digit bs k
  rw [BitVec.getLsbD_extractLsb', BitVec.getLsbD_ofNat, BitVec.getLsbD, ← hdigit, Nat.testBit_mod_two_pow,
    Nat.testBit_div_two_pow, Nat.add_comm j]
  simp [hj, show 8 * k + j < 384 by omega]

theorem bufferOf_of_lt {bs : List Byte} (h : 63 < bs.length) : bufferOf bs = none := if_neg (by omega)

/-- The buffer a data line of at most 63 bytes gets: the length in `din_len`, and in `din` the first 48 bytes. -/
theorem bufferOf_of_le {bs : List Byte} (h : bs.length ≤ 63) :
    ∃ b, bufferOf bs = some b ∧ b.dinLen.toNat = bs.length ∧
      ∀ k, k < 48 → b.din.extractLsb' (8 * k) 8 = bs.getD k 0 := by
  refine ⟨_, if_pos h, toNat_ofNat_of_le h (by decide), fun k hk => ?_⟩
  rw [packBytes_byte _ hk, List.getD_eq_getElem?_getD, List.getElem?_take_of_lt hk, List.getD_eq_getElem?_getD]

/-- A buffer whose `din` has all the bytes of the list holds that list. -/
theorem dinBytes_eq {b : InBuf} {bs : List Byte} (hlen : b.dinLen.toNat = bs.length)
    (hbytes : ∀ k, k < bs.length → b.din.extractLsb' (8 * k) 8 = bs.getD k 0) : dinBytes b = bs := by
  refine List.ext_getElem (by simp [dinBytes, hlen]) fun k _ hk => ?_
  simp [dinBytes, dinByte, hlen, hk, hbytes k hk]

/-! ### The lines -/

theorem newLine_in_range {nr lpp : Nat} (hn : nr ≤ 15) (hl : lpp ≤ 7) :
    ∃ l n, lineInstr (.fNew nr (some lpp)) = some (.fNew l n) ∧ l.toNat = lpp ∧ n.toNat = nr :=
  ⟨_, _, by rw [lineInstr, configFields_of_le hn hl]; rfl, toNat_ofNat_of_le hl (by decide),
    toNat_ofNat_of_le hn (by decide)⟩

theorem loadLine_in_range {nr lpp : Nat} {hex : List HexPiece} {b : InBuf} (hn : nr ≤ 15) (hl : lpp ≤ 7)
    (hb : bufferOf (hexBytes hex) = some b) :
    ∃ l n, lineInstr (.fLoad nr (some lpp) hex) = some (.fLoad l n b) ∧ l.toNat = lpp ∧ n.toNat = nr :=
  ⟨_, _, by rw [lineInstr, configFields_of_le hn hl, hb]; rfl, toNat_ofNat_of_le hl (by decide),
    toNat_ofNat_of_le hn (by decide)⟩

/-- A configuration operand that does not fit its field refuses the line. -/
theorem configLine_out_of_range {nr lpp : Nat} (hex : List HexPiece) (h : 15 < nr ∨ 7 < lpp) :
    assembleLine (.fNew nr (some lpp)) = none ∧ assembleLine (.fLoad nr (some lpp) hex) = none :=
  ⟨assembleLine_eq_none (by simp) (by rw [lineInstr, configFields_of_lt h]; rfl),
    assembleLine_eq_none (by simp) (by rw [lineInstr, configFields_of_lt h]; rfl)⟩

theorem indexLine_in_range {i : Nat} (h : i ≤ 15) :
    ∃ f : BitVec 4, f.toNat = i ∧ lineInstr (.fRound i) = some (.fRound f) ∧
      lineInstr (.nRound i) = some (.nRound f) ∧ lineInstr (.fGetplane i) = some (.fGetplane f) :=
  ⟨_, toNat_ofNat_of_le h (by decide), by simp [lineInstr, indexField_of_le h]⟩

theorem indexLine_out_of_range {i : Nat} (h : 15 < i) :
    assembleLine (.fRound i) = none ∧ assembleLine (.nRound i) = none ∧ assembleLine (.fGetplane i) = none := by
  simp [assembleLine, lineInstr, indexField_of_lt h]

/-- A data line of at most 63 bytes names its command, with the buffer of its bytes. -/
theorem dataLine_in_range {hex : List HexPiece} (h : (hexBytes hex).length ≤ 63) :
    ∃ b : InBuf, b.dinLen.toNat = (hexBytes hex).length ∧
      ((hexBytes hex).length ≤ 48 → dinBytes b = hexBytes hex) ∧
      (48 < (hexBytes hex).length → ∀ k, k < 48 → b.din.extractLsb' (8 * k) 8 = (hexBytes hex).getD k 0) ∧
      lineInstr (.fAbsorb hex) = some (.fAbsorb b) ∧ lineInstr (.nLoad hex) = some (.nLoad b) ∧
      lineInstr (.nAbsorb hex) = some (.nAbsorb b) ∧
      ∀ nr lpp, nr ≤ 15 → lpp ≤ 7 →
        ∃ l n, lineInstr (.fLoad nr (some lpp) hex) = some (.fLoad l n b) ∧ l.toNat = lpp ∧ n.toNat = nr := by
  obtain ⟨b, hb, hlen, hbytes⟩ := bufferOf_of_le h
  have hname : ∀ f : InBuf → Instr, (bufferOf (hexBytes hex)).map f = some (f b) := fun f => by
    rw [hb, Option.map_some]
  exact ⟨b, hlen, fun h48 => dinBytes_eq hlen fun k hk => hbytes k (by omega), fun _ => hbytes, hname _, hname _,
    hname _, fun _ _ hn hl => loadLine_in_range hn hl hb⟩

/-- A data line of more than 63 bytes is refused. -/
theorem dataLine_out_of_range {hex : List HexPiece} (h : 63 < (hexBytes hex).length) :
    assembleLine (.fAbsorb hex) = none ∧ assembleLine (.nLoad hex) = none ∧ assembleLine (.nAbsorb hex) = none ∧
      ∀ nr lpp, assembleLine (.fLoad nr lpp hex) = none := by
  simp [assembleLine, lineInstr, bufferOf_of_lt h]

/-- Settles O5: each kind of line by its fields, and every offered word by decoding its encoding. -/
theorem scriptLinesAssemble : Obligations.ScriptLinesAssemble := by
  refine ⟨fun nr hex => ⟨rfl, rfl⟩, fun _ _ => newLine_in_range, fun _ _ hex => configLine_out_of_range hex,
    fun _ => indexLine_in_range, fun _ => indexLine_out_of_range, fun _ => dataLine_in_range,
    fun _ => dataLine_out_of_range, ⟨rfl, rfl, rfl, rfl, rfl, rfl⟩, fun l i hi => ?_, fun l c hc => ?_⟩
  · exact ⟨encode i, assembleLine_eq_offer_iff.2 ⟨i, hi, rfl⟩, decode_encode i⟩
  · obtain ⟨i, hi, rfl⟩ := assembleLine_eq_offer_iff.1 hc
    exact ⟨i, hi, decode_encode i⟩

end Sys2Proof.Machine
end

section
/-! PROOFS. What an accepted command does to the block, by the columns of R24, and the frames that follow from it. -/

namespace Sys2Proof.Machine

open Sys2Proof

/-- R19 (c), read from the block alone. -/
def ConfigLegal (b : Block) : Prop := ∀ c, b.full = some c → LegalLanes c.lpp ∧ LegalRounds c.nr

/-- What the command `i` can do to the block, as `ExecCases`, with the column of R24 that each write belongs to and
with what it writes: where the configuration was legal it still is, and the started rounds are in the schedule. -/
inductive CommandEffect (i : Instr) (b : Block) : BlockResult → Prop where
  | faulted (k : Cause) (hk : k ≠ .none) : CommandEffect i b (raiseFault k b)
  | answered (d : List Byte) : CommandEffect i b (complete d b)
  | fullWritten (c : FullCtx) (hw : writesFull i = true) (hc : ConfigLegal b → LegalLanes c.lpp ∧ LegalRounds c.nr) :
      CommandEffect i b (complete [] (setFull c b))
  | ncWritten (w : NcCtx) (hw : writesNc i = true) : CommandEffect i b (complete [] (setNc w b))
  | noRounds (v : Variant) (x y : BitVec 4) (hs : startsRounds i = true) :
      CommandEffect i b (complete [] (setRounds v x y b))
  | roundsStarted (v : Variant) (x y : BitVec 4) (hs : startsRounds i = true) (hv : contextValid b v = true)
      (hr : ConfigLegal b → x.toNat < y.toNat ∧ y.toNat ≤ 12) : CommandEffect i b (startRounds v x y b)

namespace CommandEffect

variable {i : Instr} {b : Block}

theorem withFull {k : FullCtx → BlockResult} (hk : ∀ c, b.full = some c → CommandEffect i b (k c)) :
    CommandEffect i b (withFull b k) := by
  cases h : b.full with
  | none => rw [withFull_none h]; exact .faulted _ (by decide)
  | some c => rw [withFull_some h]; exact hk c h

theorem withNc {k : NcCtx → BlockResult} (hk : ∀ w, b.nc = some w → CommandEffect i b (k w)) :
    CommandEffect i b (withNc b k) := by
  cases h : b.nc with
  | none => rw [withNc_none h]; exact .faulted _ (by decide)
  | some w => rw [withNc_some h]; exact hk w h

/-- A check of an operand, before a continuation that may use that the operand is legal. -/
theorem check {p : Prop} [Decidable p] {k : Cause} (hk : k ≠ .none) {r : BlockResult} (hr : p → CommandEffect i b r) :
    CommandEffect i b (if ¬p then raiseFault k b else r) := by
  by_cases h : p
  · rw [if_neg (not_not.2 h)]; exact hr h
  · rw [if_pos h]; exact .faulted k hk

end CommandEffect

theorem contextValid_F {b : Block} {c : FullCtx} (h : b.full = some c) : contextValid b .F = true := by
  simp [contextValid, fValid, h]

theorem contextValid_N {b : Block} {w : NcCtx} (h : b.nc = some w) : contextValid b .N = true := by
  simp [contextValid, nValid, h]

/-- One round at a legal index ends within the schedule. -/
theorem oneRound_in_schedule {i : BitVec 4} (h : LegalRoundIndex i) :
    i.toNat < (i + 1).toNat ∧ (i + 1).toNat ≤ 12 := by
  unfold LegalRoundIndex at h
  bv_omega

/-- `F_PERMUTE` with a legal `F.NR` starts at `12 - F.NR`, without wrapping around (R95). -/
theorem permuteStart_toNat {nr : BitVec 4} (h : nr.toNat ≤ 12) : (12 - nr).toNat = 12 - nr.toNat := by
  bv_omega

theorem lastRounds_in_schedule {nr : BitVec 4} (h0 : nr ≠ 0) (h : LegalRounds nr) :
    (12 - nr).toNat < (12 : BitVec 4).toNat ∧ (12 : BitVec 4).toNat ≤ 12 := by
  unfold LegalRounds at h
  bv_omega

theorem blockExec_effect (i : Instr) (b : Block) : CommandEffect i b (blockExec i b) := by
  cases i with
  | fNew lpp nr =>
    exact .check (by decide) fun hl => .check (by decide) fun hn => .fullWritten _ rfl fun _ => ⟨hl, hn⟩
  | fLoad lpp nr buf =>
    exact .check (by decide) fun hl => .check (by decide) fun hn => .check (by decide) fun _ =>
      .fullWritten _ rfl fun _ => ⟨hl, hn⟩
  | fAbsorb buf =>
    exact .withFull fun c hc => .check (by decide) fun _ => .fullWritten _ rfl fun legal => legal c hc
  | fRound idx =>
    exact .withFull fun c hc => .check (by decide) fun hi =>
      .roundsStarted _ _ _ rfl (contextValid_F hc) fun _ => oneRound_in_schedule hi
  | fPermute =>
    refine .withFull fun c hc => ?_
    split
    · exact .noRounds _ _ _ rfl
    · next h0 =>
      exact .roundsStarted _ _ _ rfl (contextValid_F hc) fun legal => lastRounds_in_schedule h0 (legal c hc).2
  | fDigest => exact .withFull fun _ _ => .answered _
  | fGetplane p =>
    refine .withFull fun c _ => ?_
    split
    · exact .answered _
    · exact .faulted _ (by decide)
  | nInit => exact .ncWritten _ rfl
  | nLoad buf => exact .check (by decide) fun _ => .ncWritten _ rfl
  | nAbsorb buf => exact .withNc fun _ _ => .check (by decide) fun _ => .ncWritten _ rfl
  | nRound idx =>
    exact .withNc fun w hw => .check (by decide) fun hi =>
      .roundsStarted _ _ _ rfl (contextValid_N hw) fun _ => oneRound_in_schedule hi
  | nPermute =>
    exact .withNc fun w hw => .roundsStarted _ _ _ rfl (contextValid_N hw) fun _ => by decide
  | nDigest => exact .withNc fun _ _ => .answered _

/-- The effect of an accepted instruction that answers a next state, with its response received. -/
theorem exec_effect {i : Instr} {s t : State} (h : exec i s = .next t) :
    ∃ o, CommandEffect i s.toBlock (.next o) ∧ t = receive o s := by
  rw [exec_eq] at h
  obtain ⟨o, ho, rfl⟩ := onBlock_inv h
  exact ⟨o, ho ▸ blockExec_effect i s.toBlock, rfl⟩

/-! ### Frames (R24) -/

/-- A command that does not write context N leaves it as it was. -/
theorem CommandEffect.nc_eq {i : Instr} {b : Block} {o : BlockStep} (hw : writesNc i = false)
    (h : CommandEffect i b (.next o)) : o.block.nc = b.nc := by
  generalize hr : Host.Outcome.next o = r at h
  cases h with
  | ncWritten w hw' => simp [hw] at hw'
  | _ => cases hr; rfl

/-- A command that starts no rounds leaves `BUSY` and the round registers as they were. -/
theorem CommandEffect.rounds_eq {i : Instr} {b : Block} {o : BlockStep} (hs : startsRounds i = false)
    (h : CommandEffect i b (.next o)) :
    o.block.busy = b.busy ∧ o.block.ri = b.ri ∧ o.block.re = b.re ∧ o.block.rv = b.rv := by
  generalize hr : Host.Outcome.next o = r at h
  cases h with
  | noRounds v x y hs' => simp [hs] at hs'
  | roundsStarted v x y hs' => simp [hs] at hs'
  | _ => cases hr; exact ⟨rfl, rfl, rfl, rfl⟩

/-- Settles O37: each column from the effect of the command, and context F from the commands that keep it. -/
theorem commandFrames : Obligations.CommandFrames := by
  intro i s t h
  refine ⟨fun hw => exec_full_of_writesFull_false hw h, ?_⟩
  obtain ⟨o, effect, rfl⟩ := exec_effect h
  exact ⟨effect.nc_eq, effect.rounds_eq, rfl, o.rsp.toList, hear_eq o.rsp s.rsps⟩

end Sys2Proof.Machine
end

section
/-! PROOFS. The invariants of R19: the reset state meets them, and every step of the block keeps them. -/

namespace Sys2Proof.Machine

open Sys2Proof

/-- The four invariants of R19, read from the block alone, as `ControllerInv`. -/
structure BlockInv (b : Block) : Prop where
  exclusive : ¬(b.busy = true ∧ b.fault = true)
  inRange : b.busy = true → b.ri.toNat < b.re.toNat ∧ b.re.toNat ≤ 12 ∧ contextValid b b.rv = true
  legal : ConfigLegal b
  cause : b.cause = .none ↔ b.fault = false

theorem controllerInv_iff {s : State} : ControllerInv s ↔ BlockInv s.toBlock :=
  ⟨fun ⟨exclusive, inRange, legal, cause⟩ => ⟨exclusive, inRange, legal, cause⟩,
    fun ⟨exclusive, inRange, legal, cause⟩ => ⟨exclusive, inRange, legal, cause⟩⟩

theorem blockInv_reset : BlockInv Block.reset :=
  ⟨by decide, nofun, nofun, by decide⟩

/-! ### The writes of the block -/

theorem contextValid_setFull {b : Block} {v : Variant} (c : FullCtx) (h : contextValid b v = true) :
    contextValid (setFull c b) v = true := by
  cases v
  · rfl
  · exact h

theorem contextValid_setNc {b : Block} {v : Variant} (w : NcCtx) (h : contextValid b v = true) :
    contextValid (setNc w b) v = true := by
  cases v
  · exact h
  · rfl

namespace BlockInv

variable {b : Block}

theorem setFull (h : BlockInv b) {c : FullCtx} (hc : LegalLanes c.lpp ∧ LegalRounds c.nr) :
    BlockInv (setFull c b) where
  exclusive := h.exclusive
  inRange hb := by
    obtain ⟨hlt, hle, hv⟩ := h.inRange hb
    exact ⟨hlt, hle, contextValid_setFull c hv⟩
  legal := by rintro _ ⟨⟩; exact hc
  cause := h.cause

theorem setNc (h : BlockInv b) (w : NcCtx) : BlockInv (setNc w b) where
  exclusive := h.exclusive
  inRange hb := by
    obtain ⟨hlt, hle, hv⟩ := h.inRange hb
    exact ⟨hlt, hle, contextValid_setNc w hv⟩
  legal := h.legal
  cause := h.cause

theorem setFault (h : BlockInv b) (hb : b.busy = false) {k : Cause} (hk : k ≠ .none) : BlockInv (setFault k b) where
  exclusive := by simp [hb]
  inRange := by simp [hb]
  legal := h.legal
  cause := by simp [hk]

/-- The round registers are free while no rounds run. -/
theorem setRounds (h : BlockInv b) (hb : b.busy = false) (v : Variant) (x y : BitVec 4) :
    BlockInv (setRounds v x y b) where
  exclusive := h.exclusive
  inRange := by simp [hb]
  legal := h.legal
  cause := h.cause

theorem startedRounds (h : BlockInv b) (hf : b.fault = false) {v : Variant} {x y : BitVec 4}
    (hv : contextValid b v = true) (hr : x.toNat < y.toNat ∧ y.toNat ≤ 12) :
    BlockInv (setBusy (Machine.setRounds v x y b)) where
  exclusive := by simp [hf]
  inRange _ := ⟨hr.1, hr.2, hv⟩
  legal := h.legal
  cause := h.cause

end BlockInv

/-! ### The steps of the block -/

/-- The step answers a next block, no stop and no refusal, and that block meets the invariants. -/
def AnswersInv (r : BlockResult) : Prop := ∃ o, r = .next o ∧ BlockInv o.block

theorem answersInv_complete {b : Block} (d : List Byte) (h : BlockInv b) : AnswersInv (complete d b) := ⟨_, rfl, h⟩

theorem answersInv_silent {b : Block} (h : BlockInv b) : AnswersInv (silent b) := ⟨_, rfl, h⟩

theorem answersInv_raiseFault {b : Block} {k : Cause} (h : BlockInv b) (hb : b.busy = false) (hk : k ≠ .none) :
    AnswersInv (raiseFault k b) := ⟨_, rfl, h.setFault hb hk⟩

/-- A command runs in a block that meets the invariants and accepts it (R90). -/
theorem CommandEffect.answersInv {i : Instr} {b : Block} {r : BlockResult} (effect : CommandEffect i b r)
    (h : BlockInv b) (hb : b.busy = false) (hf : b.fault = false) : AnswersInv r := by
  cases effect with
  | faulted k hk => exact answersInv_raiseFault h hb hk
  | answered d => exact answersInv_complete d h
  | fullWritten c _ hc => exact answersInv_complete _ (h.setFull (hc h.legal))
  | ncWritten w _ => exact answersInv_complete _ (h.setNc w)
  | noRounds v x y _ => exact answersInv_complete _ (h.setRounds hb v x y)
  | roundsStarted v x y _ hv hr => exact answersInv_silent (h.startedRounds hf hv (hr h.legal))

theorem blockAccept_answersInv {b : Block} (c : Command) (h : BlockInv b) (hb : b.busy = false)
    (hf : b.fault = false) : AnswersInv (blockAccept c b) := by
  unfold blockAccept
  split
  · exact (blockExec_effect _ b).answersInv h hb hf
  · exact answersInv_raiseFault h hb (by decide)

/-- At the end of an engine step `RI` has reached `RE`, or it is still below it. -/
theorem answersInv_advanceRound {b : Block} (h : BlockInv b) (hb : b.busy = true) : AnswersInv (advanceRound b) := by
  obtain ⟨hlt, hle, hv⟩ := h.inRange hb
  rcases advanceRound_cases b with ⟨-, e⟩ | ⟨hne, e⟩
  · exact ⟨_, e, ⟨nofun, nofun, h.legal, h.cause⟩⟩
  · have hnext : (b.ri + 1).toNat < b.re.toNat := by bv_omega
    exact ⟨_, e, ⟨h.exclusive, fun _ => ⟨hnext, hle, hv⟩, h.legal, h.cause⟩⟩

/-- No engine step stops: R19 (b) gives it a round constant and a context. -/
theorem blockEngine_answersInv {b : Block} (h : BlockInv b) (hb : b.busy = true) : AnswersInv (blockEngine b) := by
  obtain ⟨hlt, hle, hv⟩ := h.inRange hb
  have K := blockEngine_cases b
  generalize blockEngine b = r at K
  cases K with
  | noRom h12 => omega
  | noContext hv' => simp [hv] at hv'
  | full c hc => exact answersInv_advanceRound (h.setFull (h.legal c hc)) hb
  | nc w => exact answersInv_advanceRound (h.setNc _) hb

theorem blockUndisturbed_answersInv {b : Block} (h : BlockInv b) : AnswersInv (blockUndisturbed b) := by
  cases hb : b.busy with
  | true => rw [blockUndisturbed, if_pos hb]; exact blockEngine_answersInv h hb
  | false => rw [blockUndisturbed, if_neg (by simp [hb])]; exact answersInv_silent h

theorem blockTurn_answersInv {b : Block} (m : Option HostMove) (h : BlockInv b) : AnswersInv (blockTurn m b) := by
  match m with
  | none | some .idle => exact blockUndisturbed_answersInv h
  | some .reset => exact answersInv_silent blockInv_reset
  | some (.offer c) =>
    simp only [blockTurn]
    split
    · exact blockUndisturbed_answersInv h
    · split
      · exact answersInv_silent h
      · next hb hf => exact blockAccept_answersInv c h (by simpa using hb) (by simpa using hf)

/-! ### The steps of the system -/

theorem step_keeps_controllerInv {s : State} (h : ControllerInv s) : ∃ t, step s = .next t ∧ ControllerInv t := by
  obtain ⟨o, ho, hinv⟩ := blockTurn_answersInv s.moves.head? (controllerInv_iff.1 h)
  exact ⟨_, onBlock_next ho, controllerInv_iff.2 hinv⟩

theorem steps_keep_controllerInv {k : Nat} {s t : State} (h : ControllerInv s) (ht : steps k s = .next t) :
    ControllerInv t := by
  induction k generalizing s with
  | zero => cases ht; exact h
  | succ k ih =>
    obtain ⟨u, hu, hinv⟩ := step_keeps_controllerInv h
    exact ih hinv (steps_succ k hu ▸ ht)

theorem causeCode_eq_zero_iff {c : Cause} : causeCode c = 0 ↔ c = .none := by
  cases c <;> decide

/-- Settles O16: the turn of the block keeps the invariants, whatever the host drives in it. -/
theorem stepKeepsTheInvariants : Obligations.StepKeepsTheInvariants := fun _ h => step_keeps_controllerInv h

/-- Settles O15: no rounds run, no fault stands and no context is constructed. -/
theorem resetMeetsTheInvariants : Obligations.ResetMeetsTheInvariants := controllerInv_iff.2 blockInv_reset

/-- Settles O17, by induction on the number of steps. -/
theorem reachableStatesMeetTheInvariants : Obligations.ReachableStatesMeetTheInvariants := by
  intro ms k t ht
  have start : ControllerInv (setMoves ms State.reset) := controllerInv_iff.2 blockInv_reset
  obtain ⟨exclusive, inRange, legal, cause⟩ := controllerInv_iff.1 (steps_keep_controllerInv start ht)
  refine ⟨exclusive, inRange, fun c hc => ?_, causeCode_eq_zero_iff.trans cause⟩
  obtain ⟨⟨hpos, hlanes⟩, hrounds⟩ := legal c hc
  exact ⟨hpos, hlanes, hrounds⟩

end Sys2Proof.Machine
end

section
/-! PROOFS. Responses (rules R58, R21): one for every accepted command, and what a turn and a command of the system
take from the block. -/

namespace Sys2Proof.Machine

open Sys2Proof

/-- A next state of the system has the next block, and of the responses the one of this step more. -/
theorem onBlock_output {f : Block → BlockResult} {s t : State} (h : onBlock f s = .next t) :
    ∃ o, f s.toBlock = .next o ∧ t.toBlock = o.block ∧ t.rsps = s.rsps ++ o.rsp.toList := by
  obtain ⟨o, ho, rfl⟩ := onBlock_inv h
  exact ⟨o, ho, rfl, hear_eq o.rsp s.rsps⟩

/-- A command accepted by an idle block has its response at once and the block stays idle, or its rounds run and it
has none yet. -/
theorem exec_responds {i : Instr} {s t : State} (hb : s.busy = false) (h : exec i s = .next t) :
    (t.busy = false ∧ ∃ r, t.rsps = s.rsps ++ [r]) ∨ (t.busy = true ∧ t.rsps = s.rsps) := by
  obtain ⟨o, effect, rfl⟩ := exec_effect h
  generalize hr : Host.Outcome.next o = r at effect
  cases effect with
  | roundsStarted => cases hr; exact .inr ⟨rfl, rfl⟩
  | _ => cases hr; exact .inl ⟨hb, _, rfl⟩

theorem acceptCommand_responds {c : Command} {s t : State} (hb : s.busy = false) (h : acceptCommand c s = .next t) :
    (t.busy = false ∧ ∃ r, t.rsps = s.rsps ++ [r]) ∨ (t.busy = true ∧ t.rsps = s.rsps) := by
  cases hd : decode c with
  | ok i => exact exec_responds hb (acceptCommand_ok s hd ▸ h)
  | error e =>
    rw [acceptCommand_error s hd] at h
    cases h
    exact .inl ⟨hb, _, rfl⟩

/-- While `BUSY = 1` a turn without a reset is an engine step, whatever is left of the moves after it (R133). -/
theorem step_busy {s : State} (hb : s.busy = true) (hReset : ∀ ms, s.moves ≠ .reset :: ms) :
    ∃ ms, step s = engineStep (setMoves ms s) := by
  match hm : s.moves with
  | [] => exact ⟨s.moves, by rw [step_nil hm, undisturbed_busy hb, setMoves_self]⟩
  | .idle :: ms => exact ⟨ms, by rw [step_idle hm, undisturbed_busy (s := setMoves ms s) hb]⟩
  | .reset :: ms => exact absurd hm (hReset ms)
  | .offer c :: ms => exact ⟨s.moves, by rw [step_offer hm, if_pos hb, undisturbed_busy hb, setMoves_self]⟩

theorem step_busy_responds {s t : State} (hb : s.busy = true) (hReset : ∀ ms, s.moves ≠ .reset :: ms)
    (h : step s = .next t) :
    (t.busy = false ∧ t.rsps = s.rsps ++ [okResponse []]) ∨ (t.busy = true ∧ t.rsps = s.rsps) := by
  obtain ⟨ms, e⟩ := step_busy hb hReset
  rcases (engineStep_frame (e ▸ h)).ends with ⟨-, hbusy, hrsps⟩ | ⟨-, hbusy, hrsps⟩
  · exact .inl ⟨hbusy, hrsps⟩
  · exact .inr ⟨hbusy.trans hb, hrsps⟩

theorem step_accepts_nothing_rsps {s t : State} (hb : s.busy = false)
    (hNone : s.fault = true ∨ ∀ c ms, s.moves ≠ .offer c :: ms) (h : step s = .next t) : t.rsps = s.rsps := by
  match hm : s.moves with
  | [] => rw [step_nil hm, undisturbed_idle hb] at h; cases h; rfl
  | .idle :: ms => rw [step_idle hm, undisturbed_idle (s := setMoves ms s) hb] at h; cases h; rfl
  | .reset :: ms => rw [step_reset hm] at h; cases h; rfl
  | .offer c :: ms =>
    have hf : s.fault = true := hNone.resolve_right fun hno => hno c ms hm
    rw [step_offer hm, if_neg (by simp [hb]), if_pos hf] at h
    cases h
    rfl

/-- Settles O46: an accepted command by its effect, a busy turn by the frame of the engine step. -/
theorem everyCommandGetsOneResponse : Obligations.EveryCommandGetsOneResponse := by
  refine ⟨fun s t c ms hm hb hf h => ?_, fun _ _ => step_busy_responds, fun _ _ => step_accepts_nothing_rsps,
    fun s t h => ?_, fun i s t h => ?_⟩
  · rw [step_offer hm, if_neg (by simp [hb]), if_neg (by simp [hf])] at h
    exact acceptCommand_responds (s := setMoves ms s) hb h
  · exact onBlock_output (s := setMoves (movesAfter s.busy s.moves) s) h
  · exact onBlock_output (exec_eq i s ▸ h)

end Sys2Proof.Machine
end

section
/-! PROOFS. The reset move and the state it leaves (rules R23, R130, R131). -/

namespace Sys2Proof.Machine

open Sys2Proof

/-- Settles O12: the reset move answers the reset block and drops only itself from the host's moves. -/
theorem resetIsTakenInEveryState : Obligations.ResetIsTakenInEveryState := by
  intro s ms hm
  exact ⟨rfl, _, step_reset hm, rfl, rfl, rfl⟩

/-- Settles O13: every field of the reset state has the value of R23 by definition. -/
theorem resetStateIsAsSpecified : Obligations.ResetStateIsAsSpecified :=
  ⟨rfl, rfl, rfl, rfl, rfl, rfl, rfl, rfl, rfl, rfl, nofun, nofun, fun _ => rfl, rfl, rfl, rfl⟩

end Sys2Proof.Machine
end

section
/-! PROOFS. The commands that construct the zero Full state and that start rounds, on legal operands (rules R91, R94,
R95, R103, R104): the step of the block, then the same step in the system. -/

namespace Sys2Proof.Machine

open Sys2Proof

/-! ### `F_NEW` -/

theorem blockFNew_legal {lpp : BitVec 3} {nr : BitVec 4} (hl : LegalLanes lpp) (hn : LegalRounds nr) (b : Block) :
    blockFNew lpp nr b = complete [] (setFull { lpp := lpp, nr := nr, a := cubeZero lpp.toNat } b) := by
  rw [blockFNew, if_neg (not_not.2 hl), if_neg (not_not.2 hn)]

theorem cubePlane_cubeZero (n : Nat) (y : Fin 3) : cubePlane (cubeZero n) y = planeZero n := by
  fin_cases y <;> rfl

/-- Lanes at and past `F.LPP` do not exist (R12). -/
theorem fullLane_eq_none {c : FullCtx} {x : Nat} (y : Fin 3) (h : c.lpp.toNat ≤ x) : fullLane c y x = none := by
  simpa [fullLane] using h

/-- Settles O18: legal operands pass both checks, and the lanes written are those of the zero planes. -/
theorem fNewConstructsTheZeroState : Obligations.FNewConstructsTheZeroState := by
  intro lpp nr s hpos hlanes hrounds
  refine ⟨_, onBlock_completes (blockFNew_legal ⟨hpos, hlanes⟩ hrounds s.toBlock), rfl, rfl, fun y x hx => ?_,
    fun y x hx => fullLane_eq_none y hx⟩
  simp [fullLane, cubePlane_cubeZero, hx]

/-! ### The commands that start rounds -/

theorem blockFRound_legal {b : Block} {c : FullCtx} {i : BitVec 4} (hc : b.full = some c) (hi : LegalRoundIndex i) :
    blockFRound i b = startRounds .F i (i + 1) b := by
  rw [blockFRound, withFull_some hc, if_neg (not_not.2 hi)]

theorem blockNRound_legal {b : Block} {w : NcCtx} {i : BitVec 4} (hw : b.nc = some w) (hi : LegalRoundIndex i) :
    blockNRound i b = startRounds .N i (i + 1) b := by
  rw [blockNRound, withNc_some hw, if_neg (not_not.2 hi)]

theorem blockNPermute_valid {b : Block} {w : NcCtx} (hw : b.nc = some w) :
    blockNPermute b = startRounds .N 0 3 b := withNc_some hw _

theorem blockFPermute_valid {b : Block} {c : FullCtx} (hc : b.full = some c) :
    blockFPermute b = if c.nr = 0 then complete [] (setRounds .F (12 - c.nr) 12 b)
      else startRounds .F (12 - c.nr) 12 b := withFull_some hc _

/-- Settles O21: the checks pass, and starting rounds writes these four fields only. -/
theorem fRoundStartsOneRound : Obligations.FRoundStartsOneRound :=
  fun _ _ _ hc hi => onBlock_quiet (blockFRound_legal hc hi)

/-- Settles O28: as `F_ROUND`, on context N. -/
theorem nRoundStartsOneRound : Obligations.NRoundStartsOneRound :=
  fun _ _ _ hw hi => onBlock_quiet (blockNRound_legal hw hi)

/-- Settles O29: only `N.VALID` is checked. -/
theorem nPermuteStartsAtZero : Obligations.NPermuteStartsAtZero :=
  fun _ _ hw => onBlock_quiet (blockNPermute_valid hw)

/-- Settles O22: the two cases of `F.NR`, and the start index. -/
theorem fPermuteStartsAtTwelveMinusNr : Obligations.FPermuteStartsAtTwelveMinusNr := by
  intro s c hc
  have step := blockFPermute_valid hc
  refine ⟨fun h0 => ?_, fun h0 => ?_, permuteStart_toNat⟩
  · rw [if_pos h0, h0] at step
    exact onBlock_completes step
  · rw [if_neg h0] at step
    exact onBlock_quiet step

end Sys2Proof.Machine
end

section
/-! PROOFS. The bytes of lanes, planes and buffers (rules R31 to R36, R68, R69): the bytes of a lane built
from bytes, and the bytes of lanes written in order. -/

namespace Sys2Proof.Machine

open Sys2Proof

/-! ### The four bytes of a lane -/

/-- Byte `j` of a lane built from four bytes is byte `j` of them (R32, R34). -/
theorem laneByte_laneOfBytes {j : Nat} (b0 b1 b2 b3 : Byte) (hj : j < 4) :
    laneByte (laneOfBytes b0 b1 b2 b3) j = [b0, b1, b2, b3].getD j 0 := by
  apply BitVec.eq_of_getLsbD_eq
  intro i hi
  interval_cases j <;>
    simp (disch := omega) [laneByte, laneOfBytes, BitVec.getLsbD_of_ge, decide_eq_true, decide_eq_false]

@[simp] theorem laneBytes_laneOfBytes (b0 b1 b2 b3 : Byte) :
    laneBytes (laneOfBytes b0 b1 b2 b3) = [b0, b1, b2, b3] := by
  simp [laneBytes, laneByte_laneOfBytes]

theorem laneBytes_getElem? {j : Nat} (v : Lane) (hj : j < 4) : (laneBytes v)[j]? = some (laneByte v j) := by
  interval_cases j <;> rfl

/-! ### The input buffer (R31, R32) -/

@[simp] theorem laneBytes_memRead (buf : InBuf) (k : Nat) :
    laneBytes (memRead buf k) = [dinByte buf k, dinByte buf (k + 1), dinByte buf (k + 2), dinByte buf (k + 3)] :=
  laneBytes_laneOfBytes _ _ _ _

theorem laneByte_memRead {j : Nat} (buf : InBuf) (k : Nat) (hj : j < 4) :
    laneByte (memRead buf k) j = dinByte buf (k + j) :=
  (laneByte_laneOfBytes _ _ _ _ hj).trans (by interval_cases j <;> rfl)

theorem dinByte_eq_zero {buf : InBuf} {k : Nat} (h : buf.dinLen.toNat ≤ k) : dinByte buf k = 0 := if_neg (by omega)

theorem memRead_eq_zero {buf : InBuf} {k : Nat} (h : buf.dinLen.toNat ≤ k) : memRead buf k = 0 := by
  rw [memRead, dinByte_eq_zero h, dinByte_eq_zero (by omega), dinByte_eq_zero (by omega), dinByte_eq_zero (by omega)]
  rfl

/-- Settles O55: the bytes of a lane built from bytes, and the zeros at and past `din_len`. -/
theorem memReadIsLittleEndian : Obligations.MemReadIsLittleEndian :=
  fun buf k => ⟨fun _ hj => laneByte_memRead buf k hj, memRead_eq_zero⟩

/-! ### Lanes written in order -/

/-- Byte `j` of the lane at position `x` of a list of lanes. -/
theorem flatMap_laneBytes_getElem? {vs : List Lane} {x j : Nat} {v : Lane} (hv : vs[x]? = some v) (hj : j < 4) :
    (vs.flatMap laneBytes)[4 * x + j]? = some (laneByte v j) := by
  induction vs generalizing x with
  | nil => simp at hv
  | cons w vs ih =>
    rw [List.flatMap_cons]
    cases x with
    | zero =>
      obtain rfl : w = v := by simpa using hv
      rw [List.getElem?_append_left (by simp; omega), Nat.mul_zero, Nat.zero_add]
      exact laneBytes_getElem? w hj
    | succ x =>
      rw [List.getElem?_append_right (by simp; omega), laneBytes_length,
        show 4 * (x + 1) + j - 4 = 4 * x + j by omega]
      exact ih (by simpa using hv)

/-- The lane that group `i` of four bytes makes: what both readers of bytes build (R32, R68). -/
def byteGroup (f : Nat → Byte) (i : Nat) : Lane :=
  laneOfBytes (f (4 * i)) (f (4 * i + 1)) (f (4 * i + 2)) (f (4 * i + 3))

/-- The first `m` groups of four bytes, written in order, are the first `4*m` bytes. -/
theorem flatMap_laneBytes_byteGroup (f : Nat → Byte) (m : Nat) :
    ((List.range m).map (byteGroup f)).flatMap laneBytes = (List.range (4 * m)).map f := by
  induction m with
  | zero => rfl
  | succ m ih => simp [List.range_succ, Nat.mul_succ, ih, byteGroup]

theorem toList_ofFn_val {n : Nat} (g : Nat → Lane) :
    (Vector.ofFn fun i : Fin n => g i).toList = (List.range n).map g :=
  List.ext_getElem (by simp) fun i _ _ => by simp

theorem planeFromBytes_toList (b : List Byte) (n : Nat) :
    (planeFromBytes b n).toList = (List.range n).map (byteGroup (byteOrZero b)) :=
  toList_ofFn_val (byteGroup (byteOrZero b))

theorem bufPlane_toList (buf : InBuf) (n y : Nat) :
    (bufPlane buf n y).toList = (List.range n).map fun x => byteGroup (dinByte buf) (n * y + x) :=
  toList_ofFn_val fun x => byteGroup (dinByte buf) (n * y + x)

/-! ### Planes from bytes and back (R68, R69) -/

theorem byteOrZero_dinBytes (buf : InBuf) (k : Nat) : byteOrZero (dinBytes buf) k = dinByte buf k := by
  by_cases h : k < buf.dinLen.toNat
  · simp [byteOrZero, dinBytes, h]
  · rw [dinByte_eq_zero (by omega)]
    simp [byteOrZero, dinBytes, h]

theorem byteOrZero_take_drop {k m : Nat} (b : List Byte) (o : Nat) (hk : k < m) :
    byteOrZero ((b.drop o).take m) k = byteOrZero b (o + k) := by
  simp [byteOrZero, List.getD_eq_getElem?_getD, List.getElem?_take_of_lt hk]

/-- Reading a byte list up to `m` bytes pads it with zeros. -/
theorem map_byteOrZero_range {b : List Byte} {m : Nat} (h : b.length ≤ m) :
    (List.range m).map (byteOrZero b) = b ++ List.replicate (m - b.length) 0 := by
  refine List.ext_getElem (by simp; omega) fun k _ _ => ?_
  by_cases hk : k < b.length
  · simp [byteOrZero, hk]
  · simp [byteOrZero, hk, List.getElem_append_right (by omega : b.length ≤ k)]

theorem planeSerialize_planeFromBytes (b : List Byte) (n : Nat) :
    planeSerialize (planeFromBytes b n) = (List.range (4 * n)).map (byteOrZero b) := by
  rw [planeSerialize, planeFromBytes_toList, flatMap_laneBytes_byteGroup]

@[simp] theorem bufPlane_lane {n i : Nat} (buf : InBuf) (y : Nat) (hi : i < n) :
    (bufPlane buf n y)[i] = memRead buf (laneOffset n y i) := by
  simp [bufPlane]

theorem planeFromBytes_dinBytes (buf : InBuf) (n y : Nat) :
    planeFromBytes (((dinBytes buf).drop (4 * n * y)).take (4 * n)) n = bufPlane buf n y := by
  refine plane_ext fun i hi => ?_
  have byte : ∀ j, j < 4 → byteOrZero (((dinBytes buf).drop (4 * n * y)).take (4 * n)) (4 * i + j) =
      dinByte buf (laneOffset n y i + j) := fun j hj => by
    rw [byteOrZero_take_drop _ _ (by omega), byteOrZero_dinBytes, laneOffset]
    congr 1
    ring
  rw [planeFromBytes_lane, bufPlane_lane, memRead, ← byte 1 (by omega), ← byte 2 (by omega), ← byte 3 (by omega)]
  exact congrArg (laneOfBytes · _ _ _) (byte 0 (by omega))

/-- Settles O57: both directions byte by byte. -/
theorem planeBytesRoundTrip : Obligations.PlaneBytesRoundTrip :=
  ⟨planeFromBytes_dinBytes, fun n b h => (planeSerialize_planeFromBytes b n).trans (map_byteOrZero_range h)⟩

/-! ### The digest (R36, R96) -/

/-- The lanes of a state in the order of R36: plane 0, then 1, then 2. -/
def cubeLanes {n : Nat} (s : Cube n) : List Lane := s.a0.toList ++ s.a1.toList ++ s.a2.toList

theorem digestBytes_eq_flatMap {n : Nat} (s : Cube n) : digestBytes s = (cubeLanes s).flatMap laneBytes := by
  simp [digestBytes_eq, cubeLanes, planeSerialize]

/-- Lane `A[y][x]` is lane `L*y + x` of the state. -/
theorem cubeLanes_getElem? {n x : Nat} {s : Cube n} {y : Fin 3} {v : Lane} (h : (cubePlane s y)[x]? = some v) :
    (cubeLanes s)[n * y.val + x]? = some v := by
  obtain ⟨hx, rfl⟩ := Vector.getElem?_eq_some_iff.1 h
  match y with
  | 0 => simp [cubeLanes, cubePlane, List.getElem?_append, hx]
  | 1 => simp [cubeLanes, cubePlane, List.getElem?_append, hx]
  | 2 => simp [cubeLanes, cubePlane, hx, Nat.mul_two, Nat.add_assoc]

/-- Settles O58: the digest is the bytes of the lanes in the order of R36. -/
theorem digestByteMap : Obligations.DigestByteMap := by
  intro c y x j v hv hj
  rw [digestBytes_eq_flatMap]
  exact flatMap_laneBytes_getElem? (cubeLanes_getElem? hv) hj

/-- The lanes of the state built from the buffer are its groups of four bytes, in order. -/
theorem cubeLanes_bufCube (buf : InBuf) (n : Nat) :
    cubeLanes (bufCube buf n) = (List.range (3 * n)).map (byteGroup (dinByte buf)) := by
  rw [show 3 * n = n + n + n by omega, List.range_add, List.range_add]
  simp [cubeLanes, bufCube, bufPlane_toList, Nat.mul_two, Function.comp_def]

theorem digestBytes_bufCube (buf : InBuf) (n : Nat) :
    digestBytes (bufCube buf n) = (List.range (12 * n)).map (dinByte buf) := by
  rw [digestBytes_eq_flatMap, cubeLanes_bufCube, flatMap_laneBytes_byteGroup, ← Nat.mul_assoc]

theorem wordsBytes_bufWords (buf : InBuf) : wordsBytes (bufWords buf) = (List.range 12).map (dinByte buf) := by
  rw [wordsBytes_eq]
  simp [bufWords, List.range_succ]

end Sys2Proof.Machine
end

section
/-! PROOFS. What the buffer of a command makes no difference to (rule R31): the bytes at and past `din_len`, and the
whole buffer of a command without data. -/

namespace Sys2Proof.Machine

open Sys2Proof

/-- Two buffers that supply the same bytes (R31). -/
structure SameBytes (b d : InBuf) : Prop where
  len : b.dinLen = d.dinLen
  byte : ∀ k, dinByte b k = dinByte d k

theorem sameBytes_of_supplied {b d : InBuf} (hlen : b.dinLen = d.dinLen)
    (h : ∀ k, k < b.dinLen.toNat → b.din.extractLsb' (8 * k) 8 = d.din.extractLsb' (8 * k) 8) : SameBytes b d where
  len := hlen
  byte k := by
    simp only [dinByte, ← hlen]
    split
    · next hk => exact h k hk
    · rfl

namespace SameBytes

variable {b d : InBuf}

theorem memRead_eq (h : SameBytes b d) (k : Nat) : memRead b k = memRead d k := by
  simp only [memRead, h.byte]

theorem bufCube_eq (h : SameBytes b d) (n : Nat) : bufCube b n = bufCube d n := by
  simp only [bufCube, bufPlane, h.memRead_eq]

theorem bufWords_eq (h : SameBytes b d) : bufWords b = bufWords d := by
  simp only [bufWords, h.memRead_eq]

theorem blockFLoad_eq (h : SameBytes b d) (lpp : BitVec 3) (nr : BitVec 4) :
    blockFLoad lpp nr b = blockFLoad lpp nr d := by
  funext s
  simp only [blockFLoad, Fits, h.len, h.bufCube_eq]

theorem blockFAbsorb_eq (h : SameBytes b d) : blockFAbsorb b = blockFAbsorb d := by
  funext s
  simp only [blockFAbsorb, Fits, h.len, h.bufCube_eq]

theorem blockNLoad_eq (h : SameBytes b d) : blockNLoad b = blockNLoad d := by
  funext s
  simp only [blockNLoad, Fits, h.len, h.bufWords_eq]

theorem blockNAbsorb_eq (h : SameBytes b d) : blockNAbsorb b = blockNAbsorb d := by
  funext s
  simp only [blockNAbsorb, Fits, h.len, h.bufWords_eq]

end SameBytes

/-- The row of a decoded word. -/
theorem row_of_decode {c : Command} {i : Instr} (h : decode c = .ok i) :
    ∃ m, selectRow c.cmd = some m ∧ i = buildInstr m c := by
  cases hm : selectRow c.cmd with
  | none => simp [decode, hm] at h
  | some m => exact ⟨m, rfl, Except.ok.inj (h.symm.trans (decode_of_row hm))⟩

/-- A row without data reads its operands from the word alone. -/
theorem buildInstr_eq_of_takesData_false {m : Mnemonic} {c d : Command} (hcmd : c.cmd = d.cmd)
    (h : takesData (buildInstr m c) = false) : buildInstr m c = buildInstr m d := by
  cases m with
  | fLoad | fAbsorb | nLoad | nAbsorb => cases h
  | _ => simp only [buildInstr, hcmd]

/-- Settles O56: the word alone names a command without data, and the others read the buffer by `DinByte`. -/
theorem unsuppliedBytesAreIgnored : Obligations.UnsuppliedBytesAreIgnored := by
  refine ⟨fun c d i hcmd hdec hdata => ?_, fun b d hlen hbytes s lpp nr => ?_⟩
  · obtain ⟨m, hm, rfl⟩ := row_of_decode hdec
    rw [decode_of_row (hcmd ▸ hm), buildInstr_eq_of_takesData_false hcmd hdata]
  · have same := sameBytes_of_supplied hlen hbytes
    exact ⟨congrArg (onBlock · s) (same.blockFLoad_eq lpp nr), congrArg (onBlock · s) same.blockFAbsorb_eq,
      congrArg (onBlock · s) same.blockNLoad_eq, congrArg (onBlock · s) same.blockNAbsorb_eq⟩

end Sys2Proof.Machine
end

section
/-! PROOFS. The commands that read the input buffer or write the output buffer, on legal operands (rules R92, R93, R96,
R97, R101, R102, R105), and the laws of loading, absorbing and serialising (R44). -/

namespace Sys2Proof.Machine

open Sys2Proof

/-! ### The steps of the block -/

theorem blockFLoad_legal {lpp : BitVec 3} {nr : BitVec 4} {buf : InBuf} (hl : LegalLanes lpp) (hn : LegalRounds nr)
    (hb : Fits buf lpp.toNat) (b : Block) :
    blockFLoad lpp nr buf b = complete [] (setFull { lpp := lpp, nr := nr, a := bufCube buf lpp.toNat } b) := by
  rw [blockFLoad, if_neg (not_not.2 hl), if_neg (not_not.2 hn), if_neg (not_not.2 hb)]

theorem blockFAbsorb_legal {b : Block} {c : FullCtx} {buf : InBuf} (hc : b.full = some c)
    (hb : Fits buf c.lpp.toNat) :
    blockFAbsorb buf b = complete [] (setFull (setLanes c (cubeXor c.a (bufCube buf c.lpp.toNat))) b) := by
  rw [blockFAbsorb, withFull_some hc, if_neg (not_not.2 hb)]

theorem blockFDigest_valid {b : Block} {c : FullCtx} (hc : b.full = some c) :
    blockFDigest b = complete (digestBytes c.a) b := withFull_some hc _

theorem exec_fDigest {s : State} {c : FullCtx} (hc : s.full = some c) :
    exec .fDigest s = .next { s with rsps := s.rsps ++ [okResponse (digestBytes c.a)] } :=
  onBlock_completes (blockFDigest_valid hc)

theorem blockFGetplane_legal {b : Block} {c : FullCtx} {p : BitVec 4} (hc : b.full = some c) (hp : p.toNat < 3) :
    blockFGetplane p b = complete (planeBytes (cubePlane c.a ⟨p.toNat, hp⟩)) b := by
  rw [blockFGetplane, withFull_some hc, dif_pos (Nat.le_of_lt_succ hp)]

theorem blockNLoad_legal {buf : InBuf} (hb : Fits buf 1) (b : Block) :
    blockNLoad buf b = complete [] (setNc (bufWords buf) b) := if_neg (not_not.2 hb)

theorem blockNAbsorb_legal {b : Block} {w : NcCtx} {buf : InBuf} (hw : b.nc = some w) (hb : Fits buf 1) :
    blockNAbsorb buf b = complete [] (setNc (wordsXor w (bufWords buf)) b) := by
  rw [blockNAbsorb, withNc_some hw, if_neg (not_not.2 hb)]

theorem blockNDigest_valid {b : Block} {w : NcCtx} (hw : b.nc = some w) :
    blockNDigest b = complete (wordsBytes w) b := withNc_some hw _

theorem exec_nDigest {s : State} {w : NcCtx} (hw : s.nc = some w) :
    exec .nDigest s = .next { s with rsps := s.rsps ++ [okResponse (wordsBytes w)] } :=
  onBlock_completes (blockNDigest_valid hw)

/-! ### The lanes and words written -/

theorem cubePlane_bufCube (buf : InBuf) (n : Nat) (y : Fin 3) : cubePlane (bufCube buf n) y = bufPlane buf n y := by
  fin_cases y <;> rfl

theorem cubePlane_cubeXor {n : Nat} (s t : Cube n) (y : Fin 3) :
    cubePlane (cubeXor s t) y = planeXor (cubePlane s y) (cubePlane t y) := by
  fin_cases y <;> rfl

/-- A lane exists below `F.LPP` only (R12). -/
theorem fullLane_eq_some_iff {c : FullCtx} {y : Fin 3} {x : Nat} {v : Lane} :
    fullLane c y x = some v ↔ ∃ h : x < c.lpp.toNat, (cubePlane c.a y)[x] = v :=
  Vector.getElem?_eq_some_iff

theorem ncWord_bufWords (buf : InBuf) (y : Fin 3) : ncWord (bufWords buf) y = memRead buf (4 * y.val) := by
  fin_cases y <;> rfl

theorem ncWord_wordsXor (w v : NcCtx) (y : Fin 3) : ncWord (wordsXor w v) y = ncWord w y ^^^ ncWord v y := by
  fin_cases y <;> rfl

/-! ### Loading and absorbing -/

/-- Settles O19: the checks pass, and the lanes written are those of the buffer's planes. -/
theorem fLoadConstructsTheStateOfTheBytes : Obligations.FLoadConstructsTheStateOfTheBytes := by
  intro lpp nr buf s hpos hlanes hrounds hfits
  refine ⟨_, onBlock_completes (blockFLoad_legal ⟨hpos, hlanes⟩ hrounds hfits s.toBlock), rfl, rfl, fun y x hx => ?_,
    fun y x hx => fullLane_eq_none y hx⟩
  exact fullLane_eq_some_iff.2 ⟨hx, by simp [cubePlane_bufCube, laneOffset]⟩

/-- Settles O20: each plane is XORed with the buffer's plane, lane by lane. -/
theorem fAbsorbXorsTheBytes : Obligations.FAbsorbXorsTheBytes := by
  intro buf s c hc hfits
  refine ⟨_, onBlock_completes (blockFAbsorb_legal hc hfits), rfl, rfl, fun y x v hv => ?_,
    fun y x hx => fullLane_eq_none y hx⟩
  obtain ⟨hx, rfl⟩ := fullLane_eq_some_iff.1 hv
  exact fullLane_eq_some_iff.2 ⟨hx, by simp [cubePlane_cubeXor, cubePlane_bufCube, laneOffset]⟩

/-- Settles O26: the check passes, and the words written are those of the buffer. -/
theorem nLoadConstructsTheWordsOfTheBytes : Obligations.NLoadConstructsTheWordsOfTheBytes :=
  fun buf s hfits => ⟨_, onBlock_completes (blockNLoad_legal hfits s.toBlock), ncWord_bufWords buf⟩

/-- Settles O27: each word is XORed with the buffer's word. -/
theorem nAbsorbXorsTheBytes : Obligations.NAbsorbXorsTheBytes := by
  intro buf s w hw hfits
  refine ⟨_, onBlock_completes (blockNAbsorb_legal hw hfits), fun y => ?_⟩
  rw [ncWord_wordsXor, ncWord_bufWords]

/-! ### Serialising -/

/-- Settles O23: the written buffer is the three serialised planes, of `4*L` bytes each. -/
theorem fDigestSerialisesTheState : Obligations.FDigestSerialisesTheState := by
  intro s c hc
  rw [← digestBytes_eq]
  refine ⟨exec_fDigest hc, ?_⟩
  simp only [digestBytes_eq, List.length_append, planeSerialize_length]
  omega

/-- Settles O24: the written buffer is the serialised plane. -/
theorem fGetplaneSerialisesOnePlane : Obligations.FGetplaneSerialisesOnePlane := by
  intro p s c hp hc
  refine ⟨?_, planeSerialize_length _, ?_⟩
  · rw [← planeBytes_eq]
    exact onBlock_completes (blockFGetplane_legal hc hp)
  · simp only [planeBytes_eq]
    exact digestBytes_eq c.a

/-- Settles O30: the written buffer is the bytes of the three words. -/
theorem nDigestSerialisesTheWords : Obligations.NDigestSerialisesTheWords := by
  intro s w hw
  refine ⟨?_, rfl⟩
  rw [← wordsBytes_eq]
  exact exec_nDigest hw

/-! ### The laws of the byte interface (R44) -/

theorem planeXor_planeXor_self {n : Nat} (p q : Plane n) : planeXor (planeXor p q) q = p :=
  plane_ext fun i hi => by simp

theorem cubeXor_cubeXor_self {n : Nat} (s t : Cube n) : cubeXor (cubeXor s t) t = s := by
  simp only [cubeXor, planeXor_planeXor_self]

theorem wordsXor_wordsXor_self (w v : NcCtx) : wordsXor (wordsXor w v) v = w := by
  simp [wordsXor]

/-- Settles O59: what is loaded is serialised back byte by byte, and XOR with the same lanes twice is the identity. -/
theorem byteInterfaceLaws : Obligations.ByteInterfaceLaws := by
  refine ⟨fun s lpp nr buf hpos hlanes hrounds hfits => ?_, fun s buf hfits => ?_, fun s c buf hc hfits => ?_,
    fun s w buf hw hfits => ?_⟩
  · refine ⟨_, onBlock_completes (blockFLoad_legal ⟨hpos, hlanes⟩ hrounds hfits s.toBlock), ?_⟩
    rw [← digestBytes_bufCube]
    exact exec_fDigest (c := ⟨lpp, nr, bufCube buf lpp.toNat⟩) rfl
  · refine ⟨_, onBlock_completes (blockNLoad_legal hfits s.toBlock), ?_⟩
    rw [← wordsBytes_bufWords]
    exact exec_nDigest rfl
  · refine ⟨_, _, onBlock_completes (blockFAbsorb_legal hc hfits), onBlock_completes (blockFAbsorb_legal rfl hfits), ?_⟩
    exact (congrArg (fun a => some (setLanes c a)) (cubeXor_cubeXor_self c.a _)).trans hc.symm
  · refine ⟨_, _, onBlock_completes (blockNAbsorb_legal hw hfits), onBlock_completes (blockNAbsorb_legal rfl hfits), ?_⟩
    exact (congrArg some (wordsXor_wordsXor_self w _)).trans hw.symm

end Sys2Proof.Machine
end

section
/-! PROOFS. Ill-formed commands (rules R38, R50, R51, R52): one of the checks of the command fails, or the context it
addresses is missing. -/

namespace Sys2Proof.Machine

open Sys2Proof

/-- The outcome is a fault of the block, with some cause. -/
def RaisesFault (b : Block) (r : BlockResult) : Prop := ∃ k, k ≠ .none ∧ r = raiseFault k b

namespace RaisesFault

variable {b : Block}

theorem withFull {k : FullCtx → BlockResult} (hk : ∀ c, b.full = some c → RaisesFault b (k c)) :
    RaisesFault b (withFull b k) := by
  cases h : b.full with
  | none => exact ⟨_, by decide, withFull_none h k⟩
  | some c => rw [withFull_some h]; exact hk c h

theorem withNc {k : NcCtx → BlockResult} (hk : ∀ w, b.nc = some w → RaisesFault b (k w)) :
    RaisesFault b (withNc b k) := by
  cases h : b.nc with
  | none => exact ⟨_, by decide, withNc_none h k⟩
  | some w => rw [withNc_some h]; exact hk w h

/-- A check that fails raises its fault; one that passes leaves it to what follows. -/
theorem check {p : Prop} [Decidable p] {k : Cause} (hk : k ≠ .none) {r : BlockResult} (hr : p → RaisesFault b r) :
    RaisesFault b (if ¬p then raiseFault k b else r) := by
  by_cases h : p
  · rw [if_neg (not_not.2 h)]; exact hr h
  · exact ⟨k, hk, if_pos h⟩

end RaisesFault

/-! The checks of well-formedness are those of the commands. -/

theorem laneCountOk_iff {lpp : BitVec 3} : laneCountOk lpp = true ↔ LegalLanes lpp := decide_eq_true_iff

theorem roundCountOk_iff {nr : BitVec 4} : roundCountOk nr = true ↔ LegalRounds nr := decide_eq_true_iff

theorem roundIndexOk_iff {i : BitVec 4} : roundIndexOk i = true ↔ LegalRoundIndex i :=
  decide_eq_true_iff.trans Nat.lt_succ_iff

theorem planeIndexOk_iff {p : BitVec 4} : planeIndexOk p = true ↔ LegalPlaneIndex p :=
  decide_eq_true_iff.trans Nat.lt_succ_iff

theorem bufferFits_iff {buf : InBuf} {l : Nat} : bufferFits buf l = true ↔ Fits buf l := decide_eq_true_iff

/-- A buffer that fits the current width fits the widest state (R38). -/
theorem fits_maxLanes {buf : InBuf} {lpp : BitVec 3} (hl : LegalLanes lpp) (h : Fits buf lpp.toNat) :
    Fits buf Config.maxLanes := by
  obtain ⟨-, hmax⟩ := hl
  exact h.trans (Nat.mul_le_mul_left 12 hmax)

/-- The step of the block: every check passed would make the command well-formed. -/
theorem blockExec_raisesFault {i : Instr} {b : Block} (legal : ConfigLegal b) (h : i.wellFormed = false) :
    RaisesFault b (blockExec i b) := by
  have refuted : i.wellFormed = true → ∀ r, RaisesFault b r := fun hw => by simp [hw] at h
  cases i with
  | fNew lpp nr =>
    exact .check (by decide) fun hl => .check (by decide) fun hn =>
      refuted (by simp only [Instr.wellFormed, laneCountOk_iff.2 hl, roundCountOk_iff.2 hn]; rfl) _
  | fLoad lpp nr buf =>
    exact .check (by decide) fun hl => .check (by decide) fun hn => .check (by decide) fun hb =>
      refuted (by simp only [Instr.wellFormed, laneCountOk_iff.2 hl, roundCountOk_iff.2 hn, bufferFits_iff.2 hb]; rfl) _
  | fAbsorb buf =>
    exact .withFull fun c hc => .check (by decide) fun hb =>
      refuted (bufferFits_iff.2 (fits_maxLanes (legal c hc).1 hb)) _
  | fRound idx => exact .withFull fun _ _ => .check (by decide) fun hi => refuted (roundIndexOk_iff.2 hi) _
  | fGetplane p =>
    refine .withFull fun c _ => ?_
    split
    · next hp => exact refuted (planeIndexOk_iff.2 hp) _
    · exact ⟨_, by decide, rfl⟩
  | nLoad buf => exact .check (by decide) fun hb => refuted (bufferFits_iff.2 hb) _
  | nAbsorb buf => exact .withNc fun _ _ => .check (by decide) fun hb => refuted (bufferFits_iff.2 hb) _
  | nRound idx => exact .withNc fun _ _ => .check (by decide) fun hi => refuted (roundIndexOk_iff.2 hi) _
  | fPermute | fDigest | nInit | nPermute | nDigest => exact refuted rfl _

/-- Settles O35: the fault of the block, in the system. -/
theorem illFormedCommandsFault : Obligations.IllFormedCommandsFault := by
  intro i s legal h
  obtain ⟨k, hk, fault⟩ := blockExec_raisesFault (b := s.toBlock) legal h
  exact ⟨k, hk, exec_eq i s ▸ onBlock_raises fault⟩

end Sys2Proof.Machine
end

section
/-! PROOFS. Decoder and encoder (rules R45, R47, R53, R54): they are inverse, the rows of the opcode map are disjoint,
and the words no row matches are those R54 lists. -/

namespace Sys2Proof.Machine

open Sys2Proof

/-- Settles O1: the fields of an encoded word select its row and are its operands. -/
theorem encodedCommandDecodes : Obligations.EncodedCommandDecodes := decode_encode

/-! ### Encoding what was decoded: the fixed fields of a row and its operand fields are the whole word -/

section RowWords

variable {m : Mnemonic} {w : BitVec 16} (op : BitVec 4) (v : BitVec 1)

theorem assemble_of_lanesRow (h : rowMatches w ⟨m, assemble op v 0 0 0, 0xF80F⟩ = true) :
    assemble op v (lppField w) (nrField w) 0 = w := by
  obtain ⟨rfl, rfl, hi⟩ := (rowMatches_lanes m w op v).1 h
  rw [← hi, assemble_fields]

theorem assemble_of_indexRow (h : rowMatches w ⟨m, assemble op v 0 0 0, 0xFFF0⟩ = true) :
    assemble op v 0 0 (idxField w) = w := by
  obtain ⟨rfl, rfl, hl, hn⟩ := (rowMatches_index m w op v).1 h
  conv_rhs => rw [← assemble_fields w, hl, hn]

theorem assemble_of_bareRow (h : rowMatches w ⟨m, assemble op v 0 0 0, 0xFFFF⟩ = true) : assemble op v 0 0 0 = w := by
  obtain ⟨rfl, rfl, hl, hn, hi⟩ := (rowMatches_bare m w op v).1 h
  conv_rhs => rw [← assemble_fields w, hl, hn, hi]

end RowWords

theorem encodeWord_of_rowMatches (c : Command) :
    ∀ r ∈ opcodeMap, rowMatches c.cmd r = true → encodeWord (buildInstr r.name c) = c.cmd := by
  simp only [opcodeMap, List.forall_mem_cons]
  exact ⟨assemble_of_lanesRow 1 0, assemble_of_lanesRow 2 0, assemble_of_bareRow 3 0, assemble_of_indexRow 4 0,
    assemble_of_bareRow 5 0, assemble_of_bareRow 6 0, assemble_of_indexRow 7 0, assemble_of_bareRow 1 1,
    assemble_of_bareRow 2 1, assemble_of_bareRow 3 1, assemble_of_indexRow 4 1, assemble_of_bareRow 5 1,
    assemble_of_bareRow 6 1, List.forall_mem_nil _⟩

theorem encodeWord_buildInstr {m : Mnemonic} {c : Command} (h : selectRow c.cmd = some m) :
    encodeWord (buildInstr m c) = c.cmd := by
  obtain ⟨r, hr, hm, rfl⟩ := selectRow_mem h
  exact encodeWord_of_rowMatches c r hr hm

theorem encodeBuf_buildInstr {m : Mnemonic} {c : Command} (h : takesData (buildInstr m c) = true) :
    encodeBuf (buildInstr m c) = c.buf := by
  cases m with
  | fLoad | fAbsorb | nLoad | nAbsorb => rfl
  | _ => cases h

/-- Settles O2: the row's fixed fields and the operands of the word are the whole word. -/
theorem decodedCommandReencodes : Obligations.DecodedCommandReencodes := by
  intro c i h
  obtain ⟨m, hm, rfl⟩ := row_of_decode h
  exact ⟨encodeWord_buildInstr hm, encodeBuf_buildInstr⟩

/-! ### The rows of the opcode map are disjoint -/

/-- Two rows whose fixed bits agree wherever both masks keep them are one row (R54). -/
theorem opcodeMap_disjoint :
    ∀ r₁ ∈ opcodeMap, ∀ r₂ ∈ opcodeMap, r₁.bits &&& r₂.mask = r₂.bits &&& r₁.mask → r₁ = r₂ := by decide

theorem rowMatches_unique {w : BitVec 16} {r₁ r₂ : OpRow} (h₁ : r₁ ∈ opcodeMap) (h₂ : r₂ ∈ opcodeMap)
    (m₁ : rowMatches w r₁ = true) (m₂ : rowMatches w r₂ = true) : r₁ = r₂ := by
  have b₁ : w &&& r₁.mask = r₁.bits := beq_iff_eq.1 m₁
  have b₂ : w &&& r₂.mask = r₂.bits := beq_iff_eq.1 m₂
  refine opcodeMap_disjoint r₁ h₁ r₂ h₂ ?_
  rw [← b₁, ← b₂, BitVec.and_assoc, BitVec.and_assoc, BitVec.and_comm r₁.mask]

/-- A row the word matches is the row it selects. -/
theorem selectRow_of_rowMatches {w : BitVec 16} {r : OpRow} (hr : r ∈ opcodeMap) (hm : rowMatches w r = true) :
    selectRow w = some r.name := by
  obtain ⟨q, hq⟩ := Option.isSome_iff_exists.1 (List.find?_isSome.2 ⟨r, hr, hm⟩)
  have hqr : q = r := rowMatches_unique (List.mem_of_find?_eq_some hq) hr (List.find?_some hq) hm
  rw [selectRow, hq, hqr, Option.map_some]

/-! ### The words no row matches, by the fields a command leaves unused (R53, R54) -/

theorem vField_cases (w : BitVec 16) : vField w = 0 ∨ vField w = 1 := by bv_omega

theorem opField_encodeWord_range (i : Instr) :
    1 ≤ (opField (encodeWord i)).toNat ∧ (opField (encodeWord i)).toNat ≤ 7 := by
  cases i <;> simp [encodeWord]

section IllegalWords

variable {w : BitVec 16}

/-- A word that selects a row is an encoded command, and its `OP` is that of one (R48). -/
theorem selectRow_noSuchOp (h : (opField w).toNat = 0 ∨ 8 ≤ (opField w).toNat) : selectRow w = none := by
  cases hm : selectRow w with
  | none => rfl
  | some m =>
    have hw : encodeWord (buildInstr m ⟨w, InBuf.empty⟩) = w := encodeWord_buildInstr hm
    have range := opField_encodeWord_range (buildInstr m ⟨w, InBuf.empty⟩)
    rw [hw] at range
    omega

theorem selectRow_ncGetPlane (hop : opField w = 7) (hv : vField w = 1) : selectRow w = none := by
  simp [selectRow_fields, hop, hv]

theorem selectRow_constructing (hop : opField w = 1 ∨ opField w = 2) (hv : vField w = 0) :
    selectRow w = none ↔ idxField w ≠ 0 := by
  rcases hop with hop | hop <;> simp [selectRow_fields, hop, hv]

/-- On context N only the round has an index (R49, R106). -/
theorem selectRow_indexed (h : opField w = 4 ∨ opField w = 7 ∧ vField w = 0) :
    selectRow w = none ↔ ¬(lppField w = 0 ∧ nrField w = 0) := by
  rcases vField_cases w with hv | hv
  · have ops : opField w = 4 ∨ opField w = 7 := by simpa [hv] using h
    rcases ops with hop | hop <;> simp [selectRow_fields, hop, hv]
  · have hop : opField w = 4 := by simpa [hv] using h
    simp [selectRow_fields, hop, hv]

/-- On context N the constructing commands have no operand field either (R49, R106). -/
theorem selectRow_bare (h : opField w = 3 ∨ opField w = 5 ∨ opField w = 6 ∨
    (opField w = 1 ∨ opField w = 2) ∧ vField w = 1) :
    selectRow w = none ↔ ¬(lppField w = 0 ∧ nrField w = 0 ∧ idxField w = 0) := by
  rcases vField_cases w with hv | hv
  · have ops : opField w = 3 ∨ opField w = 5 ∨ opField w = 6 := by simpa [hv] using h
    rcases ops with hop | hop | hop <;> simp [selectRow_fields, hop, hv]
  · have ops : opField w = 3 ∨ opField w = 5 ∨ opField w = 6 ∨ opField w = 1 ∨ opField w = 2 := by simpa [hv] using h
    rcases ops with hop | hop | hop | hop | hop <;> simp [selectRow_fields, hop, hv]

end IllegalWords

/-- The `OP`, `V` pairs (R54): no such `OP`, no get-plane on NC, and those whose command has `LPP` and `NR`, `IDX`, or
no operand field. -/
theorem op_v_cases (w : BitVec 16) :
    ((opField w).toNat = 0 ∨ 8 ≤ (opField w).toNat) ∨ (opField w = 7 ∧ vField w = 1) ∨
    ((opField w = 1 ∨ opField w = 2) ∧ vField w = 0) ∨ (opField w = 4 ∨ opField w = 7 ∧ vField w = 0) ∨
    (opField w = 3 ∨ opField w = 5 ∨ opField w = 6 ∨ (opField w = 1 ∨ opField w = 2) ∧ vField w = 1) := by
  bv_omega

/-- Settles O3: the illegal words by their `OP`, `V` pair; rows by their fixed bits. -/
theorem illegalWordsAreExactly : Obligations.IllegalWordsAreExactly := by
  refine ⟨fun c => (decode_error_iff c).trans ?_, fun w r₁ r₂ => rowMatches_unique, fun c r hr hm =>
    decode_of_row (selectRow_of_rowMatches hr hm)⟩
  rcases op_v_cases c.cmd with h | ⟨hop, hv⟩ | ⟨hop, hv⟩ | h | h
  · simp only [selectRow_noSuchOp h, true_iff]
    exact or_assoc.1 (.inl h)
  · simp [selectRow_ncGetPlane hop hv, hop, hv]
  · rw [selectRow_constructing hop hv]
    bv_omega
  · rw [selectRow_indexed h]
    bv_omega
  · rw [selectRow_bare h]
    bv_omega

end Sys2Proof.Machine
end

section
/-! PROOFS. Commands at the port (rules R45, R54, R90): the words of the opcode table, and what a step does with an
offered command that is accepted. -/

namespace Sys2Proof.Machine

open Sys2Proof

/-! ### Words of the opcode table -/

/-- A table word is placed with an empty buffer, so it names the instructions encoded with one. -/
theorem decodeTableWord_encodeWord {i : Instr} {w : Nat} (hw : w < 2 ^ 16) (hcmd : encodeWord i = BitVec.ofNat 16 w)
    (hbuf : encodeBuf i = InBuf.empty) : decodeTableWord 16 w = some i := by
  have placed : tableCommand 16 w = some (encode i) := by
    rw [tableCommand, Nat.mod_eq_of_lt hw, if_pos hw, encode, hcmd, hbuf]
  simp only [decodeTableWord, placed, decode_encode]

/-- A table word that names an instruction is a command that decodes to it. -/
theorem tableCommand_of_decodeTableWord {nbits w : Nat} {i : Instr} (h : decodeTableWord nbits w = some i) :
    ∃ c, tableCommand nbits w = some c ∧ decode c = .ok i := by
  unfold decodeTableWord at h
  split at h
  · cases h
  · next c hc =>
    split at h
    · next hi => exact ⟨c, hc, hi.trans (congrArg _ (Option.some.inj h))⟩
    · cases h

/-- Settles O4: the words are those of the encoder, and the last three have no row. -/
theorem specWordsDecode : Obligations.SpecWordsDecode := by
  refine ⟨?_, ?_, ?_, ?_, ?_, ?_, ?_, ?_, ?_, ?_, ?_, ?_, ?_, by decide, by decide, by decide⟩
  all_goals exact decodeTableWord_encodeWord (by decide) (by decide) rfl

/-! ### Accepted commands -/

/-- A state that accepts commands takes the offered one. -/
theorem step_accepts {s : State} {c : Command} {ms : List HostMove} (hm : s.moves = .offer c :: ms)
    (hb : s.busy = false) (hf : s.fault = false) : step s = acceptCommand c (setMoves ms s) := by
  simp only [step_offer hm, hb, hf, Bool.false_eq_true, if_false]

/-- Settles O6: the command is accepted, and its meaning is that of the instruction. -/
theorem acceptedCommandRunsItsInstruction : Obligations.AcceptedCommandRunsItsInstruction :=
  fun s _ ms _ hm hb hf hdec => (step_accepts hm hb hf).trans (acceptCommand_ok (setMoves ms s) hdec)

/-- Settles O7: the command is accepted, and accepting it is fault entry. -/
theorem illegalWordRaisesIllegalCmd : Obligations.IllegalWordRaisesIllegalCmd :=
  fun s _ ms _ hm hb hf hdec => (step_accepts hm hb hf).trans (acceptCommand_error (setMoves ms s) hdec)

/-- Settles O14: the placed word is an accepted command, and taking it from the port leaves the state as it was. -/
theorem placedWordRunsNext : Obligations.PlacedWordRunsNext := by
  intro s w i hb hf h
  obtain ⟨c, hc, hdec⟩ := tableCommand_of_decodeTableWord h
  have placed : s.withFetchWord 16 w = offerFirst c s := by simp only [State.withFetchWord, offerTableWord, hc]
  rw [placed]
  exact acceptedCommandRunsItsInstruction (offerFirst c s) c s.moves i rfl hb hf hdec

end Sys2Proof.Machine
end

section
/-! PROOFS. A load of no bytes (rules R31, R57). -/

namespace Sys2Proof.Machine

open Sys2Proof

section EmptyBuffer

variable {buf : InBuf} (h : buf.dinLen = 0)
include h

theorem fits_of_empty (l : Nat) : Fits buf l := by simp [Fits, h]

theorem memRead_of_empty (k : Nat) : memRead buf k = 0 := memRead_eq_zero (by simp [h])

theorem bufCube_of_empty (n : Nat) : bufCube buf n = cubeZero n := by
  simp only [bufCube, bufPlane, memRead_of_empty h, cubeZero, planeZero]

theorem bufWords_of_empty : bufWords buf = { w0 := 0, w1 := 0, w2 := 0 } := by
  simp only [bufWords, memRead_of_empty h]

theorem blockFLoad_of_empty (lpp : BitVec 3) (nr : BitVec 4) : blockFLoad lpp nr buf = blockFNew lpp nr := by
  funext b
  rw [blockFLoad, if_neg (not_not.2 (fits_of_empty h _)), bufCube_of_empty h, blockFNew]

theorem blockNLoad_of_empty : blockNLoad buf = blockNInit := by
  funext b
  rw [blockNLoad, if_neg (not_not.2 (fits_of_empty h 1)), bufWords_of_empty h, blockNInit]

end EmptyBuffer

/-- Settles O60: the buffer fits and every byte reads as 0, so the steps of the block are the same. -/
theorem emptyLoadIsTheZeroConstructor : Obligations.EmptyLoadIsTheZeroConstructor :=
  fun s lpp nr _ h =>
    ⟨congrArg (onBlock · s) (blockFLoad_of_empty h lpp nr), congrArg (onBlock · s) (blockNLoad_of_empty h)⟩

end Sys2Proof.Machine
end

section
/-! PROOFS. The lane and plane primitives (rules R60 to R67). A bit of a rotated lane and a lane of a shifted plane come
from a position reduced modulo the width, so rotations and shifts compose by adding their amounts. -/

namespace Sys2Proof.Machine

open Sys2Proof

/-! ### Bit rotation (R60) -/

/-- The integer form of the source bit: where `BitVec.getLsbD_rotateLeft` splits on wrapping, `emod` says both. -/
theorem rotl32_getLsbD (v : Lane) (z : Int) {k : Nat} (hk : k < 32) :
    (rotl32 v z).getLsbD k = v.getLsbD (((k : Int) - z) % 32).toNat := by
  have hr : (z % 32).toNat % 32 = (z % 32).toNat := by omega
  rw [rotl32_eq, BitVec.getLsbD_rotateLeft, hr]
  by_cases wraps : k < (z % 32).toNat
  · have source : 32 - (z % 32).toNat + k = (((k : Int) - z) % 32).toNat := by omega
    rw [decide_eq_true wraps, cond_true, source]
  · have source : k - (z % 32).toNat = (((k : Int) - z) % 32).toNat := by omega
    rw [decide_eq_false wraps, cond_false, source, decide_eq_true hk, Bool.true_and]

theorem sourceBit_lt (a : Int) : (a % 32).toNat < 32 := by omega

theorem rotl32_rotl32 (v : Lane) (z z' : Int) : rotl32 (rotl32 v z) z' = rotl32 v (z + z') := by
  refine BitVec.eq_of_getLsbD_eq fun k hk => ?_
  have source : (((((k : Int) - z') % 32).toNat : Int) - z) % 32 = ((k : Int) - (z + z')) % 32 := by omega
  rw [rotl32_getLsbD _ _ hk, rotl32_getLsbD _ _ (sourceBit_lt _), rotl32_getLsbD _ _ hk, source]

theorem rotl32_congr (v : Lane) {z z' : Int} (h : z % 32 = z' % 32) : rotl32 v z = rotl32 v z' := by
  rw [rotl32_eq, rotl32_eq, h]

theorem rotl32_of_emod_eq_zero (v : Lane) {z : Int} (h : z % 32 = 0) : rotl32 v z = v := by
  simp [rotl32, h]

@[simp] theorem rotl32_zero (v : Lane) : rotl32 v 0 = v := rotl32_of_emod_eq_zero v rfl

theorem rotl32_neg_cancel (v : Lane) (z : Int) : rotl32 (rotl32 v z) (-z) = v := by
  rw [rotl32_rotl32, Int.add_right_neg, rotl32_zero]

section Bitwise

variable (v w : Lane) (z : Int)

theorem rotl32_xor : rotl32 (v ^^^ w) z = rotl32 v z ^^^ rotl32 w z :=
  BitVec.eq_of_getLsbD_eq fun k hk => by simp only [rotl32_getLsbD _ _ hk, BitVec.getLsbD_xor]

theorem rotl32_and : rotl32 (v &&& w) z = rotl32 v z &&& rotl32 w z :=
  BitVec.eq_of_getLsbD_eq fun k hk => by simp only [rotl32_getLsbD _ _ hk, BitVec.getLsbD_and]

theorem rotl32_not : rotl32 (~~~v) z = ~~~rotl32 v z :=
  BitVec.eq_of_getLsbD_eq fun k hk => by simp only [rotl32_getLsbD _ _ hk, BitVec.getLsbD_not, hk, sourceBit_lt]

theorem rotl32_zeroLane : rotl32 0 z = 0 :=
  BitVec.eq_of_getLsbD_eq fun k hk => by
    rw [rotl32_getLsbD _ _ hk, BitVec.ofNat_eq_ofNat, BitVec.getLsbD_zero, BitVec.getLsbD_zero]

theorem rotl32_allOnes : rotl32 0xFFFFFFFF z = 0xFFFFFFFF := by
  have ones : (0xFFFFFFFF : Lane) = ~~~0 := by decide
  rw [ones, rotl32_not, rotl32_zeroLane]

end Bitwise

/-- Settles O47: each clause from the source bit of a rotation, the inverse by adding the two amounts. -/
theorem rotationMovesEachBit : Obligations.RotationMovesEachBit := by
  refine ⟨fun v z k hk => ?_, fun v _ => rotl32_of_emod_eq_zero v, rotl32_neg_cancel, fun v => rotl32_congr v rfl,
    fun z => ⟨rotl32_zeroLane z, rotl32_allOnes z⟩⟩
  rw [rotl32_getLsbD v z hk, Int.sub_emod_emod]

/-! ### The plane operators (R61 to R65) -/

/-- Settles O48: what the operators do on a lane, and the corner cases as the same laws of one lane. -/
theorem planeOperatorsActLaneByLane : Obligations.PlaneOperatorsActLaneByLane := by
  intro n p q
  have not_eq_xor (v : Lane) : ~~~v = v ^^^ 0xFFFFFFFF := (BitVec.xor_allOnes (x := v)).symm
  refine ⟨fun i => ⟨planeZero_lane i i.isLt, planeXor_lane p q i i.isLt, planeAnd_lane p q i i.isLt,
      (planeNot_lane p i i.isLt).trans (not_eq_xor _), fun k v => ?_⟩, ?_, ?_, planeXor_planeXor_self p q, ?_, ?_, ?_⟩
  · simp only [Fin.getElem_fin, planeXorWord_lane, Fin.ext_iff]
  all_goals exact plane_ext fun i hi => by simp

/-! ### `PlaneShift` (R66, R67) -/

section SourceLane

variable {n : Nat} (i : Fin n)

theorem sourceLane_congr {x x' : Int} (h : x % n = x' % n) : sourceLane i x = sourceLane i x' :=
  sourceLane_eq (by rw [sourceLane_val, Int.sub_emod, ← h, ← Int.sub_emod])

@[simp] theorem sourceLane_zero : sourceLane i 0 = i :=
  sourceLane_eq (by rw [Int.sub_zero, Int.emod_eq_of_lt (by omega) (by omega)])

theorem sourceLane_sourceLane (x x' : Int) : sourceLane (sourceLane i x') x = sourceLane i (x + x') := by
  refine sourceLane_eq ?_
  rw [sourceLane_val, sourceLane_val, Int.emod_sub_emod]
  congr 1
  omega

/-- The target position of R66: the lane at `i` is the source of the lane at `emod(i + x, n)`. -/
theorem sourceLane_of_target {i j : Fin n} {x : Int} (h : (j.val : Int) = ((i.val : Int) + x) % n) :
    sourceLane j x = i := by
  refine sourceLane_eq ?_
  rw [h, Int.emod_sub_emod, Int.add_sub_cancel, Int.emod_eq_of_lt (by omega) (by omega)]

end SourceLane

section Shift

variable {n : Nat} (p q : Plane n)

theorem planeShift_congr {x z x' z' : Int} (hx : x % n = x' % n) (hz : z % 32 = z' % 32) :
    planeShift p x z = planeShift p x' z' :=
  plane_ext fun i hi => by
    rw [planeShift_lane, planeShift_lane, rotl32_congr _ hz]
    simp only [sourceLane_congr ⟨i, hi⟩ hx]

variable (x z x' z' : Int)

theorem planeShift_of_sourceLane {i j : Fin n} (h : sourceLane i x = j) : (planeShift p x z)[i] = rotl32 p[j] z := by
  subst h
  exact planeShift_lane p i i.isLt x z

theorem planeShift_zero : planeShift p 0 0 = p := plane_ext fun i hi => by simp

theorem planeShift_planeShift : planeShift (planeShift p x z) x' z' = planeShift p (x + x') (z + z') :=
  plane_ext fun i hi => by simp [rotl32_rotl32, sourceLane_sourceLane]

theorem planeShift_singleton (v : Lane) : planeShift #v[v] x z = #v[rotl32 v z] :=
  plane_ext fun i hi => by simp

theorem planeShift_planeXor : planeShift (planeXor p q) x z = planeXor (planeShift p x z) (planeShift q x z) :=
  plane_ext fun i hi => by simp [rotl32_xor]

theorem planeShift_planeAnd : planeShift (planeAnd p q) x z = planeAnd (planeShift p x z) (planeShift q x z) :=
  plane_ext fun i hi => by simp [rotl32_and]

theorem planeShift_planeNot : planeShift (planeNot p) x z = planeNot (planeShift p x z) :=
  plane_ext fun i hi => by simp [rotl32_not]

end Shift

/-- Settles O49: the lanes by their source positions, the rest because shifts depend on residues and add up. -/
theorem planeShiftMovesLanes : Obligations.PlaneShiftMovesLanes := by
  intro n p x z
  refine ⟨fun i j h => planeShift_of_sourceLane p x z (sourceLane_eq h),
    fun a b h => planeShift_of_sourceLane p x z (sourceLane_of_target h), planeShift_singleton x z,
    fun k m => planeShift_congr p (Int.add_mul_emod_self_right x k n) (Int.add_mul_emod_self_right z m 32),
    planeShift_zero p, ?_, ?_⟩
  · rw [planeShift_planeShift, Int.add_zero, Int.zero_add]
  · rw [planeShift_planeShift, Int.zero_add, Int.add_zero]

/-- Settles O50: shifts compose by adding their amounts, and both rotations act bit by bit. -/
theorem planeShiftLaws : Obligations.PlaneShiftLaws := by
  intro n p q x z x' z'
  refine ⟨?_, planeShift_planeShift p x z x' z', planeShift_planeXor p q x z, planeShift_planeAnd p q x z,
    planeShift_planeNot p x z⟩
  rw [planeShift_planeShift, Int.add_right_neg, Int.add_right_neg, planeShift_zero]

end Sys2Proof.Machine
end

section
/-! PROOFS. The engine step and the rounds it runs (rules R83, R84, R94, R95, R103, R104): one round on the context `RV`
names, then the rounds of a command up to `RE`. -/

namespace Sys2Proof.Machine

open Sys2Proof

/-! ### One engine step -/

/-- One round on the context `RV` names; a context that is not constructed stays so. -/
def runRound (b : Block) (j : Fin 12) : Block :=
  { b with
    full := if b.rv = .F then b.full.map fun c => setLanes c (roundF c.a j) else b.full
    nc := if b.rv = .N then b.nc.map fun w => roundN w j else b.nc }

theorem runRound_full {b : Block} {c : FullCtx} (j : Fin 12) (hv : b.rv = .F) (hc : b.full = some c) :
    runRound b j = setFull (setLanes c (roundF c.a j)) b := by
  simp [runRound, setFull, hv, hc]

theorem runRound_nc {b : Block} {w : NcCtx} (j : Fin 12) (hv : b.rv = .N) (hw : b.nc = some w) :
    runRound b j = setNc (roundN w j) b := by
  simp [runRound, setNc, hv, hw]

theorem contextValid_runRound (b : Block) (j : Fin 12) (v : Variant) :
    contextValid (runRound b j) v = contextValid b v := by
  cases v with
  | F => simp only [contextValid, fValid, runRound]; split <;> simp
  | N => simp only [contextValid, nValid, runRound]; split <;> simp

/-- The engine step runs one round and advances, where R19 (b) gives it a round constant and a context. -/
theorem blockEngine_eq {b : Block} (h : b.ri.toNat < 12) (hv : contextValid b b.rv = true) :
    blockEngine b = advanceRound (runRound b ⟨b.ri.toNat, h⟩) := by
  have K := blockEngine_cases b
  generalize blockEngine b = r at K
  cases K with
  | noRom h12 => omega
  | noContext invalid => simp [hv] at invalid
  | full c hc _ hF => rw [runRound_full _ hF hc]
  | nc w hw _ hN => rw [runRound_nc _ hN hw]

theorem engineStep_eq {s : State} (h : s.ri.toNat < 12) (hv : contextValid s.toBlock s.rv = true) :
    engineStep s = .next
      (if s.ri + 1 = s.re then
        { s with toBlock := { runRound s.toBlock ⟨s.ri.toNat, h⟩ with ri := s.ri + 1, busy := false }
                 rsps := s.rsps ++ [okResponse []] }
      else { s with toBlock := { runRound s.toBlock ⟨s.ri.toNat, h⟩ with ri := s.ri + 1 } }) := by
  have engine := blockEngine_eq h hv
  rcases advanceRound_cases (runRound s.toBlock ⟨s.ri.toNat, h⟩) with
    ⟨(last : s.ri + 1 = s.re), e⟩ | ⟨(more : s.ri + 1 ≠ s.re), e⟩
  · rw [if_pos last]
    exact onBlock_next (engine.trans e)
  · rw [if_neg more]
    exact onBlock_next (engine.trans e)

/-- While `BUSY = 1` and the host waits, the turn is the engine step; an offer is held (R133). -/
theorem step_waiting {s : State} (hb : s.busy = true) (hw : HostWaits s) : step s = engineStep s := by
  rcases hw with hm | ⟨c, ms, hm⟩
  · rw [step_nil hm, undisturbed_busy hb]
  · rw [step_offer hm, if_pos hb, undisturbed_busy hb]

/-- Settles O9: the busy turn is `step_waiting`; an idle block is undisturbed. -/
theorem busyBlockHoldsTheOffer : Obligations.BusyBlockHoldsTheOffer :=
  ⟨fun _ => step_waiting, fun _ _ h => (engineStep_frame h).moves,
    fun _ hb hm => (step_nil hm).trans (undisturbed_idle hb),
    fun s ms hb hm => (step_idle hm).trans (undisturbed_idle (s := setMoves ms s) hb)⟩

/-- Settles O10: the engine step, with the round of each context written out. -/
theorem engineStepDoesOneRound : Obligations.EngineStepDoesOneRound := by
  refine ⟨fun s c h hv hc => ?_, fun s w h hv hw => ?_, fun _ => step_waiting⟩
  · rw [engineStep_eq h (hv ▸ contextValid_F hc), runRound_full _ hv hc]
    rfl
  · rw [engineStep_eq h (hv ▸ contextValid_N hw), runRound_nc _ hv hw]
    rfl

/-! ### The rounds of a schedule -/

/-- The `k` round indices from `i` on, in ascending order. -/
def roundsFrom (i k : Nat) : List (Fin 12) := ((List.finRange 12).drop i).take k

theorem roundsFrom_succ {i : Nat} (k : Nat) (h : i < 12) : roundsFrom i (k + 1) = ⟨i, h⟩ :: roundsFrom (i + 1) k := by
  simp [roundsFrom, List.drop_eq_getElem_cons (l := List.finRange 12) (i := i) (by simpa using h)]

theorem roundsFrom_one {i : Nat} (h : i < 12) : roundsFrom i 1 = [⟨i, h⟩] := roundsFrom_succ 0 h

/-- The rounds of `F_PERMUTE` are the `k` from `12 - k` on (R95). -/
theorem roundsFrom_lastRounds {k : Nat} (h : k ≤ 12) : roundsFrom (12 - k) k = lastRounds k :=
  List.take_of_length_le (by simp; omega)

theorem foldl_runRound_full {b : Block} {c : FullCtx} (js : List (Fin 12)) (hv : b.rv = .F) (hc : b.full = some c) :
    js.foldl runRound b = setFull (setLanes c (js.foldl roundF c.a)) b := by
  induction js generalizing b c with
  | nil => exact (setFull_self hc).symm
  | cons j js ih =>
    rw [List.foldl_cons, runRound_full j hv hc, ih (b := setFull _ b) hv rfl]
    rfl

theorem foldl_runRound_nc {b : Block} {w : NcCtx} (js : List (Fin 12)) (hv : b.rv = .N) (hw : b.nc = some w) :
    js.foldl runRound b = setNc (js.foldl roundN w) b := by
  induction js generalizing b w with
  | nil => exact (setNc_self hw).symm
  | cons j js ih =>
    rw [List.foldl_cons, runRound_nc j hv hw, ih (b := setNc _ b) hv rfl]
    rfl

/-- A round reads no round index from the block, so `RI` may advance before the later rounds or after them. -/
theorem foldl_runRound_ri (b : Block) (r : BitVec 4) (js : List (Fin 12)) :
    js.foldl runRound { b with ri := r } = { js.foldl runRound b with ri := r } := by
  induction js generalizing b with
  | nil => rfl
  | cons j js ih => exact ih (runRound b j)

/-- The rounds of a command, from `RI` up to `RE`, one a turn while the host waits; `b` is the block they make. -/
theorem steps_rounds {s : State} {b : Block} (k : Nat) (hb : s.busy = true) (hw : HostWaits s)
    (hv : contextValid s.toBlock s.rv = true) (hk : s.ri.toNat + (k + 1) = s.re.toNat) (hre : s.re.toNat ≤ 12)
    (hrun : (roundsFrom s.ri.toNat (k + 1)).foldl runRound s.toBlock = b) :
    steps (k + 1) s = .next { s with
      toBlock := { b with ri := s.re, busy := false }, rsps := s.rsps ++ [okResponse []] } := by
  subst hrun
  induction k generalizing s with
  | zero =>
    have hri : s.ri.toNat < 12 := by omega
    have last : s.ri + 1 = s.re := by bv_omega
    have turn := (step_waiting hb hw).trans (engineStep_eq hri hv)
    rw [if_pos last] at turn
    rw [steps_succ 0 turn, roundsFrom_one hri, ← last]
    rfl
  | succ k ih =>
    have hri : s.ri.toNat < 12 := by omega
    have more : s.ri + 1 ≠ s.re := by bv_omega
    have next : (s.ri + 1).toNat = s.ri.toNat + 1 := by bv_omega
    have rounds : (s.ri + 1).toNat + (k + 1) = s.re.toNat := by omega
    have turn := (step_waiting hb hw).trans (engineStep_eq hri hv)
    rw [if_neg more] at turn
    have rest := ih (s := { s with toBlock := { runRound s.toBlock ⟨s.ri.toNat, hri⟩ with ri := s.ri + 1 } }) hb hw
      ((contextValid_runRound _ _ _).trans hv) rounds hre
    rw [steps_succ _ turn, rest, roundsFrom_succ _ hri]
    simp only [next, foldl_runRound_ri, List.foldl_cons]
    rfl

/-! ### The commands that run rounds -/

section Started

variable {s : State} {first stop : BitVec 4} (k : Nat) (hb : s.busy = false) (hw : HostWaits s)
  (hk : first.toNat + (k + 1) = stop.toNat) (hre : stop.toNat ≤ 12)

include hb hw hk hre

/-- The rounds a command starts on context F: its lanes change, and the round registers stay at the end index. -/
theorem steps_fullRounds {c : FullCtx} (hc : s.full = some c) :
    steps (k + 1) { s with rv := .F, ri := first, re := stop, busy := true } = .next { s with
      full := some { c with a := (roundsFrom first.toNat (k + 1)).foldl roundF c.a }, rv := .F, ri := stop, re := stop,
      rsps := s.rsps ++ [okResponse []] } := by
  rw [hb]
  exact steps_rounds (s := { s with rv := .F, ri := first, re := stop, busy := true }) k rfl hw (contextValid_F hc)
    hk hre (foldl_runRound_full _ rfl hc)

/-- The rounds a command starts on context N: its words change, and the round registers stay at the end index. -/
theorem steps_ncRounds {w : NcCtx} (hc : s.nc = some w) :
    steps (k + 1) { s with rv := .N, ri := first, re := stop, busy := true } = .next { s with
      nc := some ((roundsFrom first.toNat (k + 1)).foldl roundN w), rv := .N, ri := stop, re := stop,
      rsps := s.rsps ++ [okResponse []] } := by
  rw [hb]
  exact steps_rounds (s := { s with rv := .N, ri := first, re := stop, busy := true }) k rfl hw (contextValid_N hc)
    hk hre (foldl_runRound_nc _ rfl hc)

end Started

/-- Settles O40: with no rounds the command completes at once; else its rounds are the last `F.NR` of the schedule. -/
theorem fPermuteRunsTheLastRounds : Obligations.FPermuteRunsTheLastRounds := by
  intro s c hc hnr hb hw
  obtain ⟨noRounds, rounds, start⟩ := fPermuteStartsAtTwelveMinusNr s c hc
  by_cases h0 : c.nr = 0
  · have hn : c.nr.toNat = 0 := by rw [h0]; rfl
    have same : { c with a := permuteF c.a 0 } = c := rfl
    refine ⟨_, noRounds h0, ?_⟩
    rw [hn, same, ← hc]
    rfl
  · obtain ⟨k, hn⟩ : ∃ k, c.nr.toNat = k + 1 := Nat.exists_eq_succ_of_ne_zero (by bv_omega)
    refine ⟨_, rounds h0, ?_⟩
    have run := steps_fullRounds k hb hw (first := 12 - c.nr) (stop := 12) (by bv_omega) (by decide) hc
    rw [start hnr, ← hn, roundsFrom_lastRounds hnr] at run
    exact run

/-- Settles O42: the three rounds from `RI = 0` on. -/
theorem nPermuteRunsTheFirstRounds : Obligations.NPermuteRunsTheFirstRounds := fun s w hw hb hwaits =>
  ⟨_, nPermuteStartsAtZero s w hw, steps_ncRounds 2 hb hwaits (by decide) (by decide) hw⟩

/-- Settles O43: the one round from `RI = i` on, in either context. -/
theorem singleRoundCommandsRunOneRound : Obligations.SingleRoundCommandsRunOneRound := by
  refine ⟨fun i h s c hc hb hw => ⟨_, fRoundStartsOneRound i s c hc (by omega), ?_⟩,
    fun i h s w hn hb hw => ⟨_, nRoundStartsOneRound i s w hn (by omega), ?_⟩⟩
  · rw [steps_fullRounds 0 hb hw (by bv_omega) (by bv_omega) hc, roundsFrom_one h]
    rfl
  · rw [steps_ncRounds 0 hb hw (by bv_omega) (by bv_omega) hn, roundsFrom_one h]
    rfl

/-! ### The length of a run of rounds -/

/-- A turn of running rounds keeps what the next one needs: it ends the rounds at `RE`, or `RI` is one further. -/
theorem step_running {s : State} (inv : ControllerInv s) (hb : s.busy = true) (hw : HostWaits s) :
    ∃ t, step s = .next t ∧ ControllerInv t ∧ HostWaits t ∧
      ((s.re.toNat = s.ri.toNat + 1 ∧ t.busy = false ∧ t.rsps = s.rsps ++ [okResponse []]) ∨
      (t.ri.toNat = s.ri.toNat + 1 ∧ t.re = s.re ∧ t.busy = true ∧ t.rsps = s.rsps)) := by
  obtain ⟨hlt, hle, -⟩ := (controllerInv_iff.1 inv).inRange hb
  obtain ⟨t, ht, hinv⟩ := step_keeps_controllerInv inv
  have frame := engineStep_frame (step_waiting hb hw ▸ ht)
  refine ⟨t, ht, hinv, by rwa [HostWaits, frame.moves], ?_⟩
  rcases frame.ends with ⟨last, hbusy, hrsps⟩ | ⟨-, hbusy, hrsps⟩
  · exact .inl ⟨by bv_omega, hbusy, hrsps⟩
  · exact .inr ⟨by rw [frame.ri]; bv_omega, frame.re, hbusy.trans hb, hrsps⟩

/-- The command of running rounds has its response in the last of the `d` turns left, and `BUSY` falls then. -/
theorem steps_to_end {s : State} (d : Nat) (inv : ControllerInv s) (hb : s.busy = true) (hw : HostWaits s)
    (hd : s.ri.toNat + d = s.re.toNat) :
    (∃ t, steps d s = .next t ∧ t.busy = false ∧ t.rsps = s.rsps ++ [okResponse []]) ∧
    (∀ k, k < d → ∃ t, steps k s = .next t ∧ t.busy = true ∧ t.rsps = s.rsps) := by
  induction d generalizing s with
  | zero =>
    obtain ⟨hlt, -⟩ := (controllerInv_iff.1 inv).inRange hb
    omega
  | succ d ih =>
    obtain ⟨t, ht, hinv, hwaits, ⟨last, hbusy, hrsps⟩ | ⟨hri, hre, hbusy, hrsps⟩⟩ := step_running inv hb hw
    · obtain rfl : d = 0 := by omega
      exact ⟨⟨t, steps_succ 0 ht, hbusy, hrsps⟩, fun k hk => ⟨s, by rw [Nat.lt_one_iff.1 hk]; rfl, hb, rfl⟩⟩
    · obtain ⟨fin, before⟩ := ih hinv hbusy hwaits (by rw [hri, hre]; omega)
      rw [steps_succ d ht, ← hrsps]
      refine ⟨fin, fun k hk => ?_⟩
      cases k with
      | zero => exact ⟨s, rfl, hb, hrsps.symm⟩
      | succ k => exact steps_succ k ht ▸ before k (by omega)

/-- Settles O44: R19 (b) makes `RE - RI` the number of turns left. -/
theorem busyFallsAfterTheRemainingRounds : Obligations.BusyFallsAfterTheRemainingRounds := by
  intro s inv hb hw
  obtain ⟨hlt, -⟩ := (controllerInv_iff.1 inv).inRange hb
  exact steps_to_end _ inv hb hw (by omega)

end Sys2Proof.Machine
end

section
/-! PROOFS. The round function (rules R74 to R82): its steps lane by lane and bit by bit, and the NC round as the round
of one lane per plane. -/

namespace Sys2Proof.Machine

open Sys2Proof

/-! ### Theta (R74) -/

section Theta

variable {n : Nat}

theorem planeXor_planeZero (p : Plane n) : planeXor p (planeZero n) = p := plane_ext fun i hi => by simp

theorem planeXor_assoc (p q r : Plane n) : planeXor (planeXor p q) r = planeXor p (planeXor q r) :=
  plane_ext fun i hi => by simp [BitVec.xor_assoc]

theorem planeXor_comm (p q : Plane n) : planeXor p q = planeXor q p :=
  plane_ext fun i hi => by simp [BitVec.xor_comm]

/-- XOR of two XORs, regrouped: the law that makes every composition of XORs and shifts linear. -/
theorem planeXor_interchange (p q r t : Plane n) :
    planeXor (planeXor p q) (planeXor r t) = planeXor (planeXor p r) (planeXor q t) := by
  rw [planeXor_assoc, planeXor_assoc, ← planeXor_assoc q, planeXor_comm q r, planeXor_assoc r]

/-- A plane XORed into two others leaves their XOR as it was. -/
theorem planeXor_cancel (p q e : Plane n) : planeXor (planeXor p e) (planeXor q e) = planeXor p q := by
  rw [planeXor_interchange, ← planeXor_assoc, planeXor_planeXor_self]

theorem planeShift_planeZero (x z : Int) : planeShift (planeZero n) x z = planeZero n :=
  plane_ext fun i hi => by rw [planeShift_lane, planeZero_lane, planeZero_lane, rotl32_zeroLane]

theorem thetaParity_cubeXor (s t : Cube n) : thetaParity (cubeXor s t) = planeXor (thetaParity s) (thetaParity t) := by
  simp only [thetaParity, cubeXor]
  rw [planeXor_interchange s.a0 t.a0, planeXor_interchange _ _ s.a2]

theorem thetaEffect_cubeXor (s t : Cube n) : thetaEffect (cubeXor s t) = planeXor (thetaEffect s) (thetaEffect t) := by
  simp only [thetaEffect, thetaParity_cubeXor, planeShift_planeXor]
  rw [planeXor_interchange]

theorem theta_cubeXor (s t : Cube n) : theta (cubeXor s t) = cubeXor (theta s) (theta t) := by
  simp only [theta, thetaEffect_cubeXor]
  simp only [cubeXor, planeXor_interchange]

/-- `E` goes into all three planes, and two of the three cancel in the parity. -/
theorem thetaParity_theta (s : Cube n) : thetaParity (theta s) = planeXor (thetaParity s) (thetaEffect s) := by
  simp only [thetaParity, theta]
  rw [planeXor_cancel, planeXor_assoc _ s.a2]

theorem theta_of_parity_zero {s : Cube n} (h : thetaParity s = planeZero n) : theta s = s := by
  simp only [theta, thetaEffect, h, planeShift_planeZero, planeXor_planeZero]

end Theta

/-- Settles O52: XOR commutes with every operator of theta, and `E` is XORed into the parity three times. -/
theorem thetaIsLinear : Obligations.ThetaIsLinear := fun _ s t =>
  ⟨theta_cubeXor s t, thetaParity_theta s, theta_of_parity_zero⟩

/-! ### Chi (R77) -/

/-- The bits of lane `x` of the three planes at one bit position. -/
def bitColumn {n : Nat} (s : Cube n) (x : Fin n) (b : Nat) : Bool × Bool × Bool :=
  (s.a0[x].getLsbD b, s.a1[x].getLsbD b, s.a2[x].getLsbD b)

theorem plane_ext_bits {n : Nat} {p q : Plane n}
    (h : ∀ (x : Fin n) (b : Nat), b < 32 → p[x].getLsbD b = q[x].getLsbD b) : p = q :=
  plane_ext fun i hi => BitVec.eq_of_getLsbD_eq fun b hb => h ⟨i, hi⟩ b hb

/-- Two states with the same bit columns are equal. -/
theorem cube_ext_bitColumn {n : Nat} {s t : Cube n}
    (h : ∀ (x : Fin n) (b : Nat), b < 32 → bitColumn s x b = bitColumn t x b) : s = t := by
  have h0 : s.a0 = t.a0 := plane_ext_bits fun x b hb => congrArg (·.1) (h x b hb)
  have h1 : s.a1 = t.a1 := plane_ext_bits fun x b hb => congrArg (·.2.1) (h x b hb)
  have h2 : s.a2 = t.a2 := plane_ext_bits fun x b hb => congrArg (·.2.2) (h x b hb)
  exact congr (congr (congrArg Cube.mk h0) h1) h2

/-- Chi on one bit column. -/
def chiBits (c : Bool × Bool × Bool) : Bool × Bool × Bool :=
  (c.1 ^^ (!c.2.1 && c.2.2), c.2.1 ^^ (!c.2.2 && c.1), c.2.2 ^^ (!c.1 && c.2.1))

theorem chiBits_chiBits (c : Bool × Bool × Bool) : chiBits (chiBits c) = c := by
  revert c
  decide

theorem bitColumn_chi {n : Nat} (s : Cube n) (x : Fin n) {b : Nat} (hb : b < 32) :
    bitColumn (chi s) x b = chiBits (bitColumn s x b) := by
  simp [bitColumn, chi, chiBits, hb]

/-- Settles O53: chi maps every bit column by `chiBits`, a function of three bits. -/
theorem chiTableAndInvolution : Obligations.ChiTableAndInvolution := by
  refine fun n s => ⟨cube_ext_bitColumn fun x b hb => ?_, fun x b hb => (bitColumn_chi s x hb).trans ?_⟩
  · rw [bitColumn_chi _ x hb, bitColumn_chi s x hb, chiBits_chiBits]
  · unfold bitColumn
    generalize s.a0[x].getLsbD b = a0
    generalize s.a1[x].getLsbD b = a1
    generalize s.a2[x].getLsbD b = a2
    revert a0 a1 a2
    decide

/-! ### The whole round -/

/-- The round constant as a lane XORed into every lane of plane 0, zero outside lane 0. -/
theorem iota_a0_lane {n : Nat} (s : Cube n) (i : Fin 12) (x : Fin n) :
    (iota s i).a0[x.val] = s.a0[x.val] ^^^ (if x.val = 0 then romRead i else 0) := by
  simp only [iota, planeXorWord_lane]
  split <;> simp

/-- Settles O51: the lanes of each step in turn; the source positions are those of the lane rotations. -/
theorem roundLaneByLane : Obligations.RoundLaneByLane := by
  intro n s i m1 m2 h1 h2 P E U0 U1 U2 V0 V1 V2 x
  have source1 (x : Fin n) : sourceLane x 1 = m1 x := sourceLane_eq (h1 x)
  have source2 (x : Fin n) : sourceLane x 2 = m2 x := sourceLane_eq (h2 x)
  have effect (x : Fin n) : (thetaEffect s)[x.val] = E x := by simp [thetaEffect, thetaParity, source1, E, P]
  have u0 (x : Fin n) : (iota (rhoWest (theta s)) i).a0[x.val] = U0 x := by
    simp [iota_a0_lane, rhoWest, theta, effect, U0]
  have u1 (x : Fin n) : (iota (rhoWest (theta s)) i).a1[x.val] = U1 x := by
    simp [iota, rhoWest, theta, source1, effect, U1]
  have u2 (x : Fin n) : (iota (rhoWest (theta s)) i).a2[x.val] = U2 x := by simp [iota, rhoWest, theta, effect, U2]
  generalize ht : iota (rhoWest (theta s)) i = t at u0 u1 u2
  rw [roundF, ht]
  have v2 (x : Fin n) : (chi t).a2[x.val] = V2 x := by simp [chi, u0, u1, u2, V2]
  refine ⟨?_, ?_, ?_⟩
  · simp [rhoEast, chi, u0, u1, u2, V0]
  · simp [rhoEast, chi, u0, u1, u2, V1]
  · simp [rhoEast, source2, v2]

/-! ### The NC round (R81) -/

theorem planeXor_singleton (v w : Lane) : planeXor #v[v] #v[w] = #v[v ^^^ w] := rfl

theorem theta_ncCube (w : NcCtx) : theta (ncCube w) = ncCube (thetaN w) := by
  simp only [theta, thetaEffect, thetaParity, ncCube, planeShift_singleton, planeXor_singleton, thetaN]

theorem rhoWest_ncCube (w : NcCtx) : rhoWest (ncCube w) = ncCube (rhoWestN w) := by
  simp [rhoWest, rhoWestN, ncCube, planeShift_singleton]

theorem iota_ncCube (w : NcCtx) (i : Fin 12) : iota (ncCube w) i = ncCube (iotaN w i) := rfl

theorem chi_ncCube (w : NcCtx) : chi (ncCube w) = ncCube (chiN w) := rfl

theorem rhoEast_ncCube (w : NcCtx) : rhoEast (ncCube w) = ncCube (rhoEastN w) := by
  simp [rhoEast, rhoEastN, ncCube, planeShift_singleton]

/-- Settles O54: each of the five steps on one lane per plane is the NC step. -/
theorem ncRoundIsTheFullRoundAtOneLane : Obligations.NcRoundIsTheFullRoundAtOneLane := fun w i => by
  rw [roundF, theta_ncCube, rhoWest_ncCube, iota_ncCube, chi_ncCube, rhoEast_ncCube, roundN]

end Sys2Proof.Machine
end

section
/-! PROOFS. The faults of the Full commands (rules R91 to R97, R110, R113), and the rounds of the Full permute as the
tail of the schedule (rules R95, R137). -/

namespace Sys2Proof.Machine

open Sys2Proof

/-! ### The checks that fail, in the order of R113 -/

section FullFaults

variable {lpp : BitVec 3} {nr : BitVec 4} {buf : InBuf} {b : Block} {c : FullCtx}

theorem blockFNew_badRounds (hl : LegalLanes lpp) (hn : ¬LegalRounds nr) :
    blockFNew lpp nr b = raiseFault .badRounds b := by
  rw [blockFNew, if_neg (not_not.2 hl), if_pos hn]

theorem blockFLoad_badRounds (hl : LegalLanes lpp) (hn : ¬LegalRounds nr) :
    blockFLoad lpp nr buf b = raiseFault .badRounds b := by
  rw [blockFLoad, if_neg (not_not.2 hl), if_pos hn]

theorem blockFLoad_oversize (hl : LegalLanes lpp) (hn : LegalRounds nr) (hb : ¬Fits buf lpp.toNat) :
    blockFLoad lpp nr buf b = raiseFault .oversize b := by
  rw [blockFLoad, if_neg (not_not.2 hl), if_neg (not_not.2 hn), if_pos hb]

theorem blockFAbsorb_oversize (hc : b.full = some c) (hb : ¬Fits buf c.lpp.toNat) :
    blockFAbsorb buf b = raiseFault .oversize b := by
  rw [blockFAbsorb, withFull_some hc, if_pos hb]

theorem blockFRound_badRoundIndex {i : BitVec 4} (hc : b.full = some c) (hi : ¬LegalRoundIndex i) :
    blockFRound i b = raiseFault .badRoundIndex b := by
  rw [blockFRound, withFull_some hc, if_pos hi]

theorem blockFGetplane_badPlaneIndex {p : BitVec 4} (hc : b.full = some c) (hp : ¬LegalPlaneIndex p) :
    blockFGetplane p b = raiseFault .badPlaneIndex b := by
  rw [blockFGetplane, withFull_some hc, dif_neg hp]

end FullFaults

/-- Settles O31: in each clause the checks before the failing one pass, or there are none before it. -/
theorem fullCommandFaults : Obligations.FullCommandFaults := by
  intro s lpp nr i buf
  refine ⟨fun hl => ⟨?fNew_lanes, ?fLoad_lanes⟩, fun hl hn => ⟨?fNew_rounds, ?fLoad_rounds⟩,
    fun hl hn hb => ?fLoad_size, fun hc => ?noContext, fun c hc => ⟨fun hb => ?fAbsorb, fun hi => ?fRound,
    fun hp => ?fGetplane⟩⟩
  case fNew_lanes => exact onBlock_raises (if_pos hl)
  case fLoad_lanes => exact onBlock_raises (if_pos hl)
  case fNew_rounds => exact onBlock_raises (blockFNew_badRounds hl hn)
  case fLoad_rounds => exact onBlock_raises (blockFLoad_badRounds hl hn)
  case fLoad_size => exact onBlock_raises (blockFLoad_oversize hl hn (Nat.not_le.2 hb))
  case noContext =>
    have missing (k : FullCtx → BlockResult) := onBlock_raises (f := (withFull · k)) (withFull_none hc k)
    exact ⟨missing _, missing _, missing _, missing _, missing _⟩
  case fAbsorb => exact onBlock_raises (blockFAbsorb_oversize hc (Nat.not_le.2 hb))
  case fRound => exact onBlock_raises (blockFRound_badRoundIndex hc (Nat.not_le.2 hi))
  case fGetplane => exact onBlock_raises (blockFGetplane_badPlaneIndex hc (Nat.not_le.2 hp))

/-! ### The Full permute -/

/-- One round more at the tail of the schedule is one at the index before it. -/
theorem lastRounds_succ {k : Nat} (h : k < 12) : lastRounds (k + 1) = ⟨11 - k, by omega⟩ :: lastRounds k := by
  have first : 12 - (k + 1) = 11 - k := by omega
  have rest : 11 - k + 1 = 12 - k := by omega
  rw [← roundsFrom_lastRounds h, first, roundsFrom_succ k (by omega), rest, roundsFrom_lastRounds h.le]

theorem permuteF_succ {n k : Nat} (s : Cube n) (h : k < 12) :
    permuteF s (k + 1) = permuteF (roundF s ⟨11 - k, by omega⟩) k := by
  rw [permuteF, lastRounds_succ h, List.foldl_cons, permuteF]

/-- Settles O41: no round is the identity, and the first of `k + 1` rounds has the index `11 - k`. -/
theorem permuteIsAnchoredAtTheTail : Obligations.PermuteIsAnchoredAtTheTail :=
  fun _ s => ⟨rfl, fun _ h => permuteF_succ s h⟩

end Sys2Proof.Machine
end

section
/-! PROOFS. The commands of the NC context (rules R100 to R106): `N_INIT`, the faults of the others, and what context N
does not have: a get-plane command and a configuration. -/

namespace Sys2Proof.Machine

open Sys2Proof

/-- Settles O25: the command has no check, and the words it writes are zero. -/
theorem nInitConstructsTheZeroWords : Obligations.NInitConstructsTheZeroWords := by
  intro s
  refine ⟨_, onBlock_completes (f := blockNInit) rfl, fun y => ?_⟩
  fin_cases y <;> rfl

/-! ### The checks that fail, in the order of R113 -/

section NcFaults

variable {buf : InBuf} {b : Block} {w : NcCtx}

theorem blockNAbsorb_oversize (hw : b.nc = some w) (hb : ¬Fits buf 1) : blockNAbsorb buf b = raiseFault .oversize b := by
  rw [blockNAbsorb, withNc_some hw, if_pos hb]

theorem blockNRound_badRoundIndex {i : BitVec 4} (hw : b.nc = some w) (hi : ¬LegalRoundIndex i) :
    blockNRound i b = raiseFault .badRoundIndex b := by
  rw [blockNRound, withNc_some hw, if_pos hi]

end NcFaults

/-- Settles O32: `N_LOAD` has the one check; the others check for context N first, then their operand. -/
theorem ncCommandFaults : Obligations.NcCommandFaults := by
  intro s i buf
  refine ⟨fun hb => ?nLoad, fun hw => ?noContext, fun w hw => ⟨fun hb => ?nAbsorb, fun hi => ?nRound⟩⟩
  case nLoad => exact onBlock_raises (if_pos (Nat.not_le.2 hb))
  case noContext =>
    have missing (k : NcCtx → BlockResult) := onBlock_raises (f := (withNc · k)) (withNc_none hw k)
    exact ⟨missing _, missing _, missing _, missing _⟩
  case nAbsorb => exact onBlock_raises (blockNAbsorb_oversize hw (Nat.not_le.2 hb))
  case nRound => exact onBlock_raises (blockNRound_badRoundIndex hw (Nat.not_le.2 hi))

/-! ### No get-plane and no configuration (R106) -/

theorem decode_ncGetPlane {c : Command} (hop : (opField c.cmd).toNat = 7) (hv : vField c.cmd = 1) :
    ∃ e, decode c = .error e :=
  (decode_error_iff c).2 (selectRow_ncGetPlane (BitVec.eq_of_toNat_eq hop) hv)

/-- Only commands of context F write it (R24, R49). -/
theorem writesFull_of_isFull_false {i : Instr} (h : isFull i = false) : writesFull i = false := by
  cases i with
  | fNew | fLoad | fAbsorb => cases h
  | _ => rfl

/-- Settles O8: the word has no row, and the configuration is part of context F, which no NC command writes. -/
theorem ncHasNoGetPlaneAndNoConfiguration : Obligations.NcHasNoGetPlaneAndNoConfiguration := by
  refine ⟨fun s c ms hm hb hf hop hv => ?_, fun i s t hi h => ?_⟩
  · obtain ⟨e, he⟩ := decode_ncGetPlane hop hv
    exact (step_accepts hm hb hf).trans (acceptCommand_error _ he)
  · exact sameConfiguration_of_full (exec_full_of_writesFull_false (writesFull_of_isFull_false hi) h)

end Sys2Proof.Machine
end

section
/-! PROOFS. Independence of the two contexts (rule R107). A command and an engine step of context `v` do the same to any
two blocks that agree on that context; so they keep every relation between blocks that the writes of the one context
keep. One such relation replaces the other context, one leaves its commands out of the run. -/

namespace Sys2Proof.Machine

open Sys2Proof

/-! ### Relations kept by everything context `v` does -/

/-- `R` relates blocks that agree on context `v` and on its running rounds, and is kept by every write of a command
and of an engine step of `v`. -/
structure KeptBy (v : Variant) (R : Block → Block → Prop) : Prop where
  full {b b' : Block} : R b b' → v = .F → b'.full = b.full
  nc {b b' : Block} : R b b' → v = .N → b'.nc = b.nc
  rounds {b b' : Block} : R b b' → b.busy = true → b.rv = v → b'.ri = b.ri ∧ b'.re = b.re ∧ b'.rv = b.rv
  setFault {b b' : Block} (k : Cause) : R b b' → R (setFault k b) (setFault k b')
  setFull {b b' : Block} (c : FullCtx) : R b b' → v = .F → R (setFull c b) (setFull c b')
  setNc {b b' : Block} (w : NcCtx) : R b b' → v = .N → R (setNc w b) (setNc w b')
  setRounds {b b' : Block} (x y : BitVec 4) : R b b' → b.busy = false → R (setRounds v x y b) (setRounds v x y b')
  startRounds {b b' : Block} (x y : BitVec 4) :
    R b b' → R (setBusy (Machine.setRounds v x y b)) (setBusy (Machine.setRounds v x y b'))
  advance {b b' : Block} : R b b' → b.busy = true → b.rv = v →
    R { b with ri := b.ri + 1 } { b' with ri := b'.ri + 1 }
  finish {b b' : Block} : R b b' → R { b with ri := b.ri + 1, busy := false } { b' with ri := b'.ri + 1, busy := false }

/-- The outcomes of two steps agree: both answer, with the same response and related blocks, or both stop alike. -/
inductive Related (R : Block → Block → Prop) : BlockResult → BlockResult → Prop where
  | next {b b' : Block} (rsp : Option Response) (h : R b b') :
      Related R (.next { block := b, rsp := rsp }) (.next { block := b', rsp := rsp })
  | stop (e : Fault) : Related R (.fault e) (.fault e)

namespace Related

variable {v : Variant} {R : Block → Block → Prop} {b b' : Block}

theorem next_inv {o : BlockStep} {r : BlockResult} (h : Related R (.next o) r) :
    ∃ o', r = .next o' ∧ o'.rsp = o.rsp ∧ R o.block o'.block := by
  cases h with
  | next rsp h => exact ⟨_, rfl, rfl, h⟩

theorem withFull (kept : KeptBy .F R) (h : R b b') {k k' : FullCtx → BlockResult} (hk : ∀ c, Related R (k c) (k' c)) :
    Related R (withFull b k) (withFull b' k') := by
  have same := kept.full h rfl
  cases hc : b.full with
  | none => rw [withFull_none hc, withFull_none (same.trans hc)]; exact .next _ (kept.setFault _ h)
  | some c => rw [withFull_some hc, withFull_some (same.trans hc)]; exact hk c

theorem withNc (kept : KeptBy .N R) (h : R b b') {k k' : NcCtx → BlockResult} (hk : ∀ w, Related R (k w) (k' w)) :
    Related R (withNc b k) (withNc b' k') := by
  have same := kept.nc h rfl
  cases hw : b.nc with
  | none => rw [withNc_none hw, withNc_none (same.trans hw)]; exact .next _ (kept.setFault _ h)
  | some w => rw [withNc_some hw, withNc_some (same.trans hw)]; exact hk w

/-- A check of an operand, which reads no block. -/
theorem check (kept : KeptBy v R) (h : R b b') {p : Prop} [Decidable p] {k : Cause} {r r' : BlockResult}
    (hr : Related R r r') : Related R (if ¬p then raiseFault k b else r) (if ¬p then raiseFault k b' else r') := by
  split
  · exact .next _ (kept.setFault k h)
  · exact hr

/-- A command of context `v`, on an idle block. -/
theorem blockExec {i : Instr} (kept : KeptBy (contextOf i) R) (h : R b b') (hb : b.busy = false) :
    Related R (blockExec i b) (blockExec i b') := by
  cases i with
  | fNew lpp nr => exact check kept h (check kept h (.next _ (kept.setFull _ h rfl)))
  | fLoad lpp nr buf => exact check kept h (check kept h (check kept h (.next _ (kept.setFull _ h rfl))))
  | fAbsorb buf => exact withFull kept h fun c => check kept h (.next _ (kept.setFull _ h rfl))
  | fRound idx => exact withFull kept h fun _ => check kept h (.next _ (kept.startRounds _ _ h))
  | fPermute =>
    refine withFull kept h fun c => ?_
    split
    · exact .next _ (kept.setRounds _ _ h hb)
    · exact .next _ (kept.startRounds _ _ h)
  | fDigest => exact withFull kept h fun _ => .next _ h
  | fGetplane p =>
    refine withFull kept h fun c => ?_
    split
    · exact .next _ h
    · exact .next _ (kept.setFault _ h)
  | nInit => exact .next _ (kept.setNc _ h rfl)
  | nLoad buf => exact check kept h (.next _ (kept.setNc _ h rfl))
  | nAbsorb buf => exact withNc kept h fun w => check kept h (.next _ (kept.setNc _ h rfl))
  | nRound idx => exact withNc kept h fun _ => check kept h (.next _ (kept.startRounds _ _ h))
  | nPermute => exact withNc kept h fun _ => .next _ (kept.startRounds _ _ h)
  | nDigest => exact withNc kept h fun _ => .next _ h

theorem advanceRound (kept : KeptBy v R) (h : R b b') (hb : b.busy = true) (hv : b.rv = v) :
    Related R (advanceRound b) (advanceRound b') := by
  obtain ⟨hri, hre, -⟩ := kept.rounds h hb hv
  have last : (b'.ri + 1 = b'.re) = (b.ri + 1 = b.re) := by rw [hri, hre]
  simp only [Machine.advanceRound, last]
  split
  · exact .next _ (kept.finish h)
  · exact .next _ (kept.advance h hb hv)

/-- An engine step while the rounds of context `v` run. -/
theorem blockEngine (kept : KeptBy v R) (h : R b b') (hb : b.busy = true) (hv : b.rv = v) :
    Related R (blockEngine b) (blockEngine b') := by
  obtain ⟨hri, -, hrv⟩ := kept.rounds h hb hv
  simp only [Machine.blockEngine, hri, hrv]
  split
  · cases v with
    | F =>
      simp only [hv, kept.full h rfl]
      cases b.full with
      | none => exact .stop _
      | some c => exact advanceRound kept (kept.setFull _ h rfl) hb hv
    | N =>
      simp only [hv, kept.nc h rfl]
      cases b.nc with
      | none => exact .stop _
      | some w => exact advanceRound kept (kept.setNc _ h rfl) hb hv
  · exact .stop _

end Related

/-! ### The other context replaced -/

/-- The block with its other context, the one that is not `v`, taken from `d`. -/
def withOther (v : Variant) (d b : Block) : Block :=
  match v with
  | .F => { b with nc := d.nc }
  | .N => { b with full := d.full }

section WithOther

variable (v : Variant) (d b : Block)

@[simp] theorem withOther_busy : (withOther v d b).busy = b.busy := by cases v <;> rfl
@[simp] theorem withOther_fault : (withOther v d b).fault = b.fault := by cases v <;> rfl
@[simp] theorem withOther_ri : (withOther v d b).ri = b.ri := by cases v <;> rfl
@[simp] theorem withOther_re : (withOther v d b).re = b.re := by cases v <;> rfl
@[simp] theorem withOther_rv : (withOther v d b).rv = b.rv := by cases v <;> rfl
@[simp] theorem withOther_self : withOther v b b = b := by cases v <;> rfl

end WithOther

/-- `b'` is `b` with the other context taken from `d`, and no rounds of that context run. -/
structure Replaced (v : Variant) (d b b' : Block) : Prop where
  eq : b' = withOther v d b
  running : b.busy = true → b.rv = v

theorem keptBy_replaced (v : Variant) (d : Block) : KeptBy v (Replaced v d) where
  full := by rintro b _ ⟨rfl, -⟩ rfl; rfl
  nc := by rintro b _ ⟨rfl, -⟩ rfl; rfl
  rounds := by rintro b _ ⟨rfl, -⟩ - -; simp
  setFault := by rintro b _ k ⟨rfl, running⟩; exact ⟨by cases v <;> rfl, running⟩
  setFull := by rintro b _ c ⟨rfl, running⟩ rfl; exact ⟨rfl, running⟩
  setNc := by rintro b _ w ⟨rfl, running⟩ rfl; exact ⟨rfl, running⟩
  setRounds := by rintro b _ x y ⟨rfl, -⟩ -; exact ⟨by cases v <;> rfl, fun _ => rfl⟩
  startRounds := by rintro b _ x y ⟨rfl, -⟩; exact ⟨by cases v <;> rfl, fun _ => rfl⟩
  advance := by rintro b _ ⟨rfl, running⟩ - -; exact ⟨by cases v <;> rfl, running⟩
  finish := by rintro b _ ⟨rfl, -⟩; exact ⟨by cases v <;> rfl, nofun⟩

namespace Replaced

variable {v : Variant} {d b b' : Block}

/-- A block in which no rounds of the other context run, with its own other context. -/
theorem refl (running : b.busy = true → b.rv = v) : Replaced v b b b :=
  ⟨(withOther_self v b).symm, running⟩

theorem busy_eq (h : Replaced v d b b') : b'.busy = b.busy := by rw [h.eq, withOther_busy]

theorem fault_eq (h : Replaced v d b b') : b'.fault = b.fault := by rw [h.eq, withOther_fault]

theorem blockUndisturbed (h : Replaced v d b b') :
    Related (Replaced v d) (blockUndisturbed b) (blockUndisturbed b') := by
  simp only [Machine.blockUndisturbed, h.busy_eq]
  split
  · next hb => exact .blockEngine (keptBy_replaced v d) h hb (h.running hb)
  · exact .next _ h

theorem blockAccept {c : Command} (h : Replaced v d b b') (hb : b.busy = false)
    (hc : ∀ i, decode c = .ok i → contextOf i = v) : Related (Replaced v d) (blockAccept c b) (blockAccept c b') := by
  unfold Machine.blockAccept
  split
  · next i hi =>
    obtain rfl := hc i hi
    exact .blockExec (keptBy_replaced _ d) h hb
  · exact .next _ ((keptBy_replaced v d).setFault _ h)

/-- The turn of the block when the host drives no reset and no command of the other context. -/
theorem blockTurn {m : Option HostMove} (h : Replaced v d b b')
    (hReset : m ≠ some .reset) (hm : ∀ c, m = some (.offer c) → ∀ i, decode c = .ok i → contextOf i = v) :
    Related (Replaced v d) (blockTurn m b) (blockTurn m b') := by
  match m with
  | none | some .idle => exact h.blockUndisturbed
  | some .reset => exact absurd rfl hReset
  | some (.offer c) =>
    simp only [Machine.blockTurn, h.busy_eq, h.fault_eq]
    split
    · exact h.blockUndisturbed
    · next hb =>
      split
      · exact .next _ h
      · exact h.blockAccept (by simpa using hb) (hm c rfl)

end Replaced

/-! ### Runs with the other context replaced -/

/-- The system with the other context of the block taken from `d`. -/
def otherFrom (v : Variant) (d : Block) (s : State) : State := { s with toBlock := withOther v d s.toBlock }

/-- Only context `v` works in the runs from this state. -/
structure OnlyOn (v : Variant) (s : State) : Prop where
  running : s.busy = true → s.rv = v
  noReset : .reset ∉ s.moves
  offers : ∀ c, .offer c ∈ s.moves → ∀ i, decode c = .ok i → contextOf i = v

/-- An answered step that keeps `Replaced w` on one block: the context that is not `w` is as it was. -/
theorem replaced_of_related {f : Block → BlockResult} {w : Variant} {ms : List HostMove} {s t : State}
    (related : Related (Replaced w s.toBlock) (f s.toBlock) (f s.toBlock)) (ht : onBlock f (setMoves ms s) = .next t) :
    Replaced w s.toBlock t.toBlock t.toBlock := by
  obtain ⟨o, ho, rfl⟩ := onBlock_inv ht
  rw [show f s.toBlock = .next o from ho] at related
  obtain ⟨o', ho', -, replaced⟩ := related.next_inv
  cases ho'
  exact replaced

theorem onBlock_otherFrom {v : Variant} {d : Block} {f : Block → BlockResult} {s : State} (ms : List HostMove)
    (h : Related (Replaced v d) (f s.toBlock) (f (withOther v d s.toBlock))) :
    onBlock f (setMoves ms (otherFrom v d s)) = mapNext (otherFrom v d) (onBlock f (setMoves ms s)) := by
  simp only [onBlock, otherFrom, setMoves_toBlock]
  generalize f s.toBlock = r at h
  generalize f (withOther v d s.toBlock) = r' at h
  cases h with
  | next rsp h => rw [h.eq]; rfl
  | stop e => rfl

theorem step_moves {s t : State} (h : step s = .next t) : t.moves = movesAfter s.busy s.moves := by
  obtain ⟨o, -, rfl⟩ := onBlock_inv h
  rfl

theorem mem_of_mem_movesAfter {busy : Bool} {ms : List HostMove} {m : HostMove} (h : m ∈ movesAfter busy ms) :
    m ∈ ms := by
  match ms with
  | [] => cases h
  | .idle :: ms | .reset :: ms => exact List.mem_cons_of_mem _ h
  | .offer c :: ms =>
    cases busy with
    | true => exact h
    | false => exact List.mem_cons_of_mem _ h

section OnlyOn

variable {v : Variant} {s : State}

theorem OnlyOn.turn_replaced {d b' : Block} (h : OnlyOn v s) (hr : Replaced v d s.toBlock b') :
    Related (Replaced v d) (blockTurn s.moves.head? s.toBlock) (blockTurn s.moves.head? b') :=
  hr.blockTurn (fun hm => h.noReset (List.mem_of_head? hm))
    fun c hm => h.offers c (List.mem_of_head? hm)

theorem OnlyOn.step_otherFrom (h : OnlyOn v s) (d : Block) :
    step (otherFrom v d s) = mapNext (otherFrom v d) (step s) := by
  have busy : (otherFrom v d s).busy = s.busy := withOther_busy v d s.toBlock
  rw [step, turn, busy]
  exact onBlock_otherFrom _ (h.turn_replaced ⟨rfl, h.running⟩)

theorem OnlyOn.of_step {t : State} (h : OnlyOn v s) (ht : step s = .next t) : OnlyOn v t := by
  have moves : ∀ m, m ∈ t.moves → m ∈ s.moves := fun m hm => mem_of_mem_movesAfter (step_moves ht ▸ hm)
  have replaced := replaced_of_related (h.turn_replaced (.refl h.running)) ht
  exact ⟨replaced.running, fun hr => h.noReset (moves _ hr), fun c hc => h.offers c (moves _ hc)⟩

/-- While only context `v` works, the other context makes no difference to the run. -/
theorem OnlyOn.steps_otherFrom (k : Nat) (h : OnlyOn v s) (d : Block) :
    steps k (otherFrom v d s) = mapNext (otherFrom v d) (steps k s) := by
  induction k generalizing s with
  | zero => rfl
  | succ k ih =>
    simp only [steps, h.step_otherFrom d]
    cases hs : step s with
    | next t => exact ih (h.of_step hs)
    | fault e => rfl
    | refused e => rfl

end OnlyOn

/-! ### The run of the commands of one context alone -/

/-- `b` is a block in the run of both contexts and `b'` the block in the run of the commands of `v` alone: context `v`
is the same, and while its rounds run the round registers are, too. -/
structure SameContext (v : Variant) (b b' : Block) : Prop where
  full : v = .F → b'.full = b.full
  nc : v = .N → b'.nc = b.nc
  busy : b'.busy = (b.busy && b.rv == v)
  rounds : b'.busy = true → b'.ri = b.ri ∧ b'.re = b.re ∧ b'.rv = b.rv
  fault : b'.fault = b.fault

theorem keptBy_sameContext (v : Variant) : KeptBy v (SameContext v) where
  full h := h.full
  nc h := h.nc
  rounds h hb hv := h.rounds (by simp [h.busy, hb, hv])
  setFault _ h := ⟨h.full, h.nc, h.busy, h.rounds, rfl⟩
  setFull _ h _ := ⟨fun _ => rfl, h.nc, h.busy, h.rounds, h.fault⟩
  setNc _ h _ := ⟨h.full, fun _ => rfl, h.busy, h.rounds, h.fault⟩
  setRounds x y h hb := ⟨h.full, h.nc, by simp [h.busy, hb], fun _ => ⟨rfl, rfl, rfl⟩, h.fault⟩
  startRounds x y h := ⟨h.full, h.nc, by simp, fun _ => ⟨rfl, rfl, rfl⟩, h.fault⟩
  advance h _ _ := by
    refine ⟨h.full, h.nc, h.busy, fun hb' => ?_, h.fault⟩
    obtain ⟨hri, hre, hrv⟩ := h.rounds hb'
    exact ⟨congrArg (· + 1) hri, hre, hrv⟩
  finish h := ⟨h.full, h.nc, rfl, nofun, h.fault⟩

/-- What context `w` does leaves the block of the run of `v` alone where it is, unless it faults. -/
theorem SameContext.of_replaced {v w : Variant} {b b' c : Block} (h : SameContext v b b') (hw : w ≠ v)
    (hrun : b.busy = true → b.rv = w) (hc : Replaced w b c c) (hf : c.fault = b.fault) : SameContext v c b' := by
  have idle {d : Block} (hd : d.busy = true → d.rv = w) : (d.busy && d.rv == v) = false := by
    cases hb : d.busy with
    | false => rfl
    | true => simp [hd hb, hw]
  have idle' : b'.busy = false := h.busy.trans (idle hrun)
  refine ⟨?_, ?_, idle'.trans (idle hc.running).symm, by simp [idle'], h.fault.trans hf.symm⟩
  · rintro rfl
    obtain rfl : w = .N := by cases w; exacts [absurd rfl hw, rfl]
    exact (h.full rfl).trans (congrArg Block.full hc.eq).symm
  · rintro rfl
    obtain rfl : w = .F := by cases w; exacts [rfl, absurd rfl hw]
    exact (h.nc rfl).trans (congrArg Block.nc hc.eq).symm

/-- `u` is the state of the run of the commands of `v` alone that stands beside `s` in the run of both contexts. -/
structure Alone (v : Variant) (s u : State) : Prop where
  block : SameContext v s.toBlock u.toBlock
  moves : u.moves = s.moves.filter (offersOn v)

/-! ### The moves of the two runs -/

theorem ne_reset_cons {s : State} (h : .reset ∉ s.moves) (ms : List HostMove) : s.moves ≠ .reset :: ms :=
  fun hm => h (hm ▸ List.mem_cons_self)

theorem exists_offer_of_offersOn {v : Variant} {m : HostMove} (h : offersOn v m = true) :
    ∃ c i, m = .offer c ∧ decode c = .ok i ∧ contextOf i = v := by
  match m with
  | .idle | .reset => cases h
  | .offer c =>
    cases hd : decode c with
    | ok i => exact ⟨c, i, rfl, hd, by simpa [offersOn_offer v hd] using h⟩
    | error e => simp [offersOn, hd] at h

/-- In the run of one context alone the host only offers. -/
theorem Alone.hostWaits {v : Variant} {s u : State} (h : Alone v s u) : HostWaits u := by
  cases hm : u.moves with
  | nil => exact .inl hm
  | cons m ms =>
    have mem : m ∈ s.moves.filter (offersOn v) := h.moves ▸ hm ▸ List.mem_cons_self
    obtain ⟨c, -, rfl, -⟩ := exists_offer_of_offersOn (List.of_mem_filter mem)
    exact .inr ⟨c, ms, hm⟩

/-- A turn with `BUSY = 1` uses up no offer. -/
theorem filter_movesAfter_busy (v : Variant) (ms : List HostMove) :
    (movesAfter true ms).filter (offersOn v) = ms.filter (offersOn v) := by
  match ms with
  | [] | .idle :: _ | .reset :: _ | .offer _ :: _ => rfl

/-- A turn that does not work on context `v` uses up no offer on it. -/
theorem filter_movesAfter_of_worksOn_false {v : Variant} {s : State} (h : worksOn v s = false) :
    (movesAfter s.busy s.moves).filter (offersOn v) = s.moves.filter (offersOn v) := by
  cases hb : s.busy with
  | true => exact filter_movesAfter_busy v s.moves
  | false =>
    match hm : s.moves with
    | [] | .idle :: _ | .reset :: _ => rfl
    | .offer c :: ms =>
      have other : offersOn v (.offer c) = false := by simpa [worksOn, hb, hm] using h
      simp [movesAfter, other]

/-! ### Faults stand -/

/-- Without a reset a fault stands (R114). -/
theorem step_fault {s t : State} (hReset : .reset ∉ s.moves) (h : step s = .next t) (hf : s.fault = true) :
    t.fault = true := by
  cases hb : s.busy with
  | true =>
    obtain ⟨ms, engine⟩ := step_busy hb (ne_reset_cons hReset)
    exact (engineStep_frame (engine.symm.trans h)).fault.trans hf
  | false =>
    match hm : s.moves with
    | [] => rw [step_nil hm, undisturbed_idle hb] at h; cases h; exact hf
    | .idle :: ms => rw [step_idle hm, undisturbed_idle (s := setMoves ms s) hb] at h; cases h; exact hf
    | .reset :: ms => exact absurd hm (ne_reset_cons hReset ms)
    | .offer c :: ms => rw [step_offer hm, if_neg (by simp [hb]), if_pos hf] at h; cases h; exact hf

theorem not_mem_reset_of_step {s t : State} (hReset : .reset ∉ s.moves) (h : step s = .next t) : .reset ∉ t.moves :=
  fun hm => hReset (mem_of_mem_movesAfter (step_moves h ▸ hm))

theorem steps_fault {k : Nat} {s t : State} (hReset : .reset ∉ s.moves) (h : steps k s = .next t)
    (hf : s.fault = true) : t.fault = true := by
  induction k generalizing s with
  | zero => cases h; exact hf
  | succ k ih =>
    cases hs : step s with
    | next s' => exact ih (not_mem_reset_of_step hReset hs) (steps_succ k hs ▸ h) (step_fault hReset hs hf)
    | fault e => simp [steps, hs] at h
    | refused e => simp [steps, hs] at h

/-! ### One turn of the run of both contexts -/

section Turn

variable {v : Variant} {s u t : State}

/-- A step of the block that both runs make: the state alone moves on beside the other, with the same response. -/
theorem Alone.next_of_related {f : Block → BlockResult} {ms : List HostMove}
    (related : Related (SameContext v) (f s.toBlock) (f u.toBlock)) (ht : onBlock f (setMoves ms s) = .next t) :
    ∃ u', onBlock f (setMoves (ms.filter (offersOn v)) u) = .next u' ∧ Alone v t u' ∧
      u'.rsps = u.rsps ++ t.rsps.drop s.rsps.length := by
  obtain ⟨o, ho, rfl⟩ := onBlock_inv ht
  rw [show f s.toBlock = .next o from ho] at related
  obtain ⟨o', ho', rsp, same⟩ := related.next_inv
  exact ⟨_, onBlock_next ho', ⟨same, rfl⟩, by simp [hear_eq, rsp]⟩

/-- A turn that works on context `v` is a turn of the run alone. -/
theorem Alone.step_of_worksOn (h : Alone v s u) (hReset : .reset ∉ s.moves) (ht : step s = .next t)
    (hf : s.fault = false) (hw : worksOn v s = true) :
    ∃ u', step u = .next u' ∧ Alone v t u' ∧ u'.rsps = u.rsps ++ t.rsps.drop s.rsps.length := by
  cases hb : s.busy with
  | true =>
    have hv : s.rv = v := by simpa [worksOn, hb] using hw
    have busy : u.busy = true := by rw [h.block.busy, hb, hv]; simp
    obtain ⟨ms, engine⟩ := step_busy hb (ne_reset_cons hReset)
    have turn := engine.symm.trans ht
    have moves : ms.filter (offersOn v) = u.moves := by
      have left : ms = movesAfter true s.moves := (engineStep_frame turn).moves.symm.trans (hb ▸ step_moves ht)
      rw [left, filter_movesAfter_busy, h.moves]
    have next := Alone.next_of_related (f := blockEngine) (.blockEngine (keptBy_sameContext v) h.block hb hv) turn
    rw [moves, setMoves_self] at next
    rwa [step_waiting busy h.hostWaits]
  | false =>
    have idle : u.busy = false := by rw [h.block.busy, hb]; rfl
    cases hm : s.moves with
    | nil => simp [worksOn, hb, hm] at hw
    | cons m ms =>
      have on : offersOn v m = true := by simpa [worksOn, hb, hm] using hw
      obtain ⟨c, i, rfl, hi, rfl⟩ := exists_offer_of_offersOn on
      have hmu : u.moves = .offer c :: ms.filter (offersOn (contextOf i)) := by
        rw [h.moves, hm, List.filter_cons_of_pos on]
      rw [acceptedCommandRunsItsInstruction s c ms i hm hb hf hi, exec_eq] at ht
      rw [acceptedCommandRunsItsInstruction u c _ i hmu idle (h.block.fault.trans hf) hi, exec_eq]
      exact Alone.next_of_related (.blockExec (keptBy_sameContext _) h.block hb) ht

/-- A turn that does not work on context `v` is none of the run alone. -/
theorem Alone.of_worksOn_false (h : Alone v s u) (hReset : .reset ∉ s.moves) (ht : step s = .next t)
    (hfs : s.fault = false) (hft : t.fault = false) (hw : worksOn v s = false) : Alone v t u := by
  refine ⟨?_, by rw [h.moves, step_moves ht, filter_movesAfter_of_worksOn_false hw]⟩
  have same {w : Variant} (hwv : w ≠ v) (hrun : s.busy = true → s.rv = w)
      (replaced : Replaced w s.toBlock t.toBlock t.toBlock) : SameContext v t.toBlock u.toBlock :=
    h.block.of_replaced hwv hrun replaced (hft.trans hfs.symm)
  cases hb : s.busy with
  | true =>
    obtain ⟨ms, engine⟩ := step_busy hb (ne_reset_cons hReset)
    have turn := engine.symm.trans ht
    refine same (by simpa [worksOn, hb] using hw) (fun _ => rfl) (replaced_of_related (f := blockEngine) ?_ turn)
    exact .blockEngine (keptBy_replaced _ _) (.refl fun _ => rfl) hb rfl
  | false =>
    match hm : s.moves with
    | [] => rw [step_nil hm, undisturbed_idle hb] at ht; cases ht; exact h.block
    | .idle :: ms => rw [step_idle hm, undisturbed_idle (s := setMoves ms s) hb] at ht; cases ht; exact h.block
    | .reset :: ms => exact absurd hm (ne_reset_cons hReset ms)
    | .offer c :: ms =>
      rw [step_accepts hm hb hfs] at ht
      cases hi : decode c with
      | error e => rw [acceptCommand_error _ hi] at ht; cases ht; cases hft
      | ok i =>
        rw [acceptCommand_ok _ hi, exec_eq] at ht
        refine same (w := contextOf i) (by simpa [worksOn, hb, hm, offersOn_offer v hi] using hw) (by simp [hb])
          (replaced_of_related ?_ ht)
        exact .blockExec (keptBy_replaced _ _) (.refl (by simp [hb])) hb

end Turn

/-! ### The whole run -/

/-- The run of the commands of `v` alone makes the turns that work on `v`, and has their responses. -/
theorem Alone.run {v : Variant} {k : Nat} {s u t : State} (h : Alone v s u) (hReset : .reset ∉ s.moves)
    (ht : steps k s = .next t) (hf : t.fault = false) :
    ∃ m u', steps m u = .next u' ∧ Alone v t u' ∧ u'.rsps = u.rsps ++ responsesOf v k s := by
  induction k generalizing s u with
  | zero => cases ht; exact ⟨0, u, rfl, h, (List.append_nil _).symm⟩
  | succ k ih =>
    cases hs : step s with
    | fault e => simp [steps, hs] at ht
    | refused e => simp [steps, hs] at ht
    | next s' =>
      have rest : steps k s' = .next t := steps_succ k hs ▸ ht
      have hReset' := not_mem_reset_of_step hReset hs
      have noFault {r : State} {j : Nat} (hr : .reset ∉ r.moves) (hj : steps j r = .next t) : r.fault = false :=
        Bool.eq_false_iff.2 fun fault => by simp [steps_fault hr hj fault] at hf
      have hfs := noFault hReset ht
      have hfs' := noFault hReset' rest
      rw [responsesOf_succ v k hs]
      cases hw : worksOn v s with
      | true =>
        obtain ⟨u₁, hu₁, alone, rsps⟩ := h.step_of_worksOn hReset hs hfs hw
        obtain ⟨m, u', hu', alone', rsps'⟩ := ih alone hReset' rest
        exact ⟨m + 1, u', (steps_succ m hu₁).trans hu', alone', by simp [rsps', rsps]⟩
      | false => exact ih (h.of_worksOn_false hReset hs hfs hfs' hw) hReset' rest

/-- The start of the run alone. -/
theorem alone_onlyCommandsOf (v : Variant) {s : State} (hb : s.busy = false) : Alone v s (onlyCommandsOf v s) where
  block := ⟨fun _ => rfl, fun _ => rfl, by simp [hb], by simp [hb], rfl⟩
  moves := rfl

theorem UndisturbedRun.alone {v : Variant} {k : Nat} {s t : State} (h : UndisturbedRun k s t) :
    ∃ m u, UndisturbedRun m (onlyCommandsOf v s) u ∧ u.rsps = s.rsps ++ responsesOf v k s ∧
      SameContext v t.toBlock u.toBlock := by
  obtain ⟨m, u, runs, ⟨block, moves⟩, rsps⟩ := (alone_onlyCommandsOf v h.startsIdle).run h.noReset h.runs h.noFault
  refine ⟨m, u, ?_, rsps, block⟩
  exact {
    runs := runs
    startsIdle := h.startsIdle
    noReset := fun hr => h.noReset (List.mem_of_mem_filter hr)
    lastMove := by rw [moves, h.lastMove]; rfl
    idle := by rw [block.busy, h.idle]; rfl
    noFault := block.fault.trans h.noFault }

theorem contextOf_of_isFull_true {i : Instr} (h : isFull i = true) : contextOf i = .F := by rw [contextOf, if_pos h]

theorem contextOf_of_isFull_false {i : Instr} (h : isFull i = false) : contextOf i = .N := by simp [contextOf, h]

/-- Settles O39: replacing the context that does not work commutes with every turn, and the turns that work on a
context are those of the run of its commands alone. -/
theorem contextsDoNotInterfere : Obligations.ContextsDoNotInterfere := by
  refine ⟨fun k s f running noReset offers => ?_, fun k s w running noReset offers => ?_, fun v k s t h => ?_⟩
  · have only : OnlyOn .N s := ⟨running, noReset, fun c hc i hi => contextOf_of_isFull_false (offers c hc i hi)⟩
    exact only.steps_otherFrom k { Block.reset with full := f }
  · have only : OnlyOn .F s := ⟨running, noReset, fun c hc i hi => contextOf_of_isFull_true (offers c hc i hi)⟩
    exact only.steps_otherFrom k { Block.reset with nc := w }
  · obtain ⟨m, u, run, rsps, block⟩ := h.alone (v := v)
    exact ⟨m, u, run, rsps, fun hv => block.full hv, fun hv => block.nc hv⟩

end Sys2Proof.Machine
end

section
/-! PROOFS. A fault stands until reset (rules R114, R130): while `FAULT = 1` only a reset changes the block. -/

namespace Sys2Proof.Machine

open Sys2Proof

/-- A stopped block takes no host move but a reset, and runs no engine step. -/
theorem blockTurn_of_fault {b : Block} {m : Option HostMove} (hb : b.busy = false) (hf : b.fault = true)
    (hm : m ≠ some .reset) : blockTurn m b = silent b := by
  have waits : blockUndisturbed b = silent b := if_neg (by simp [hb])
  match m with
  | none | some .idle => exact waits
  | some .reset => exact absurd rfl hm
  | some (.offer c) => simp [blockTurn, hb, hf]

/-- A turn of a stopped block changes nothing but what the host has left to do. -/
theorem step_of_fault {s : State} (hb : s.busy = false) (hf : s.fault = true) (hReset : .reset ∉ s.moves) :
    step s = .next (setMoves (movesAfter s.busy s.moves) s) :=
  onBlock_quiet (blockTurn_of_fault hb hf fun hm => hReset (List.mem_of_mem_head? hm))

theorem steps_of_fault {s : State} (k : Nat) (hb : s.busy = false) (hf : s.fault = true) (hReset : .reset ∉ s.moves) :
    ∃ ms, steps k s = .next (setMoves ms s) := by
  induction k generalizing s with
  | zero => exact ⟨s.moves, rfl⟩
  | succ k ih =>
    have turn := step_of_fault hb hf hReset
    rw [steps_succ k turn]
    exact ih (s := setMoves _ s) hb hf (not_mem_reset_of_step hReset turn)

/-- Settles O11: without a reset the turns only use up moves, and the reset block has no fault and no context. -/
theorem faultHoldsUntilReset : Obligations.FaultHoldsUntilReset := by
  refine ⟨fun k s hb hf hReset => ?_, fun s ms hm => ⟨_, step_reset hm, rfl, rfl, rfl⟩⟩
  obtain ⟨ms, run⟩ := steps_of_fault k hb hf hReset
  exact ⟨by simp [hostStepEnabled, hf], fun rst => by simp [pinCmdReady, hf], hf, rfl, _, run, rfl, rfl⟩

end Sys2Proof.Machine
end

section
/-! PROOFS. Which commands fault (rules R110 to R112): a command raises a cause of its column of R110, because one of
its checks fails, or it leaves `FAULT` and `CAUSE` as they were. -/

namespace Sys2Proof.Machine

open Sys2Proof

/-- Every check of the command `i` passes in the block: its operands are legal, its context exists or is created, and
the buffer of `F_ABSORB` fits the current width (R110). -/
structure ChecksPass (i : Instr) (b : Block) : Prop where
  wellFormed : i.wellFormed = true
  addressed : (constructs i || (if isFull i then fValid b else nValid b)) = true
  absorbFits : ∀ buf c, i = .fAbsorb buf → b.full = some c → Fits buf c.lpp.toNat

/-- What the command `i` can do to `FAULT` and `CAUSE`: raise a cause of its column of R110, and then not all its
checks pass; or leave the two as they were, with the response of success or with none yet. -/
inductive FaultEffect (i : Instr) (b : Block) : BlockResult → Prop where
  | raised (k : Cause) (listed : mayRaise i k = true) (failed : ¬ChecksPass i b) : FaultEffect i b (raiseFault k b)
  | completed (d : List Byte) (b' : Block) (hf : b'.fault = b.fault) (hc : b'.cause = b.cause) :
      FaultEffect i b (complete d b')
  | started (b' : Block) (hf : b'.fault = b.fault) (hc : b'.cause = b.cause) : FaultEffect i b (silent b')

namespace FaultEffect

variable {i : Instr} {b : Block}

theorem noContext (hn : constructs i = false) (missing : (if isFull i then fValid b else nValid b) = false) :
    FaultEffect i b (raiseFault .noContext b) :=
  .raised _ (by simp [mayRaise, hn]) fun pass => by simpa [hn, missing] using pass.addressed

theorem withFull (hn : constructs i = false) (hi : isFull i = true) {k : FullCtx → BlockResult}
    (hk : ∀ c, b.full = some c → FaultEffect i b (k c)) : FaultEffect i b (withFull b k) := by
  cases h : b.full with
  | none => rw [withFull_none h]; exact noContext hn (by simp [hi, fValid, h])
  | some c => rw [withFull_some h]; exact hk c h

theorem withNc (hn : constructs i = false) (hi : isFull i = false) {k : NcCtx → BlockResult}
    (hk : ∀ w, FaultEffect i b (k w)) : FaultEffect i b (withNc b k) := by
  cases h : b.nc with
  | none => rw [withNc_none h]; exact noContext hn (by simp [hi, nValid, h])
  | some w => rw [withNc_some h]; exact hk w

/-- A check with a cause of the command's column, which passes if all checks do. -/
theorem check {p : Prop} [Decidable p] {k : Cause} (listed : mayRaise i k = true) (passes : ChecksPass i b → p)
    {r : BlockResult} (hr : FaultEffect i b r) : FaultEffect i b (if ¬p then raiseFault k b else r) := by
  by_cases h : p
  · rw [if_neg (not_not.2 h)]; exact hr
  · rw [if_pos h]; exact .raised k listed (mt passes h)

end FaultEffect

theorem wellFormed_fNew_iff {lpp : BitVec 3} {nr : BitVec 4} :
    (Instr.fNew lpp nr).wellFormed = true ↔ LegalLanes lpp ∧ LegalRounds nr := by
  rw [Instr.wellFormed, Bool.and_eq_true, laneCountOk_iff, roundCountOk_iff]

theorem wellFormed_fLoad_iff {lpp : BitVec 3} {nr : BitVec 4} {buf : InBuf} :
    (Instr.fLoad lpp nr buf).wellFormed = true ↔ (LegalLanes lpp ∧ LegalRounds nr) ∧ Fits buf lpp.toNat := by
  rw [Instr.wellFormed, Bool.and_eq_true, Bool.and_eq_true, laneCountOk_iff, roundCountOk_iff, bufferFits_iff]

theorem blockExec_faultEffect (i : Instr) (b : Block) : FaultEffect i b (blockExec i b) := by
  cases i with
  | fNew lpp nr =>
    exact .check rfl (fun pass => (wellFormed_fNew_iff.1 pass.wellFormed).1) <|
      .check rfl (fun pass => (wellFormed_fNew_iff.1 pass.wellFormed).2) <| .completed _ _ rfl rfl
  | fLoad lpp nr buf =>
    exact .check rfl (fun pass => (wellFormed_fLoad_iff.1 pass.wellFormed).1.1) <|
      .check rfl (fun pass => (wellFormed_fLoad_iff.1 pass.wellFormed).1.2) <|
      .check rfl (fun pass => (wellFormed_fLoad_iff.1 pass.wellFormed).2) <| .completed _ _ rfl rfl
  | fAbsorb buf =>
    exact .withFull rfl rfl fun c hc => .check rfl (fun pass => pass.absorbFits buf c rfl hc) <| .completed _ _ rfl rfl
  | fRound idx =>
    exact .withFull rfl rfl fun _ _ =>
      .check rfl (fun pass : ChecksPass (.fRound idx) b => roundIndexOk_iff.1 pass.wellFormed) <| .started _ rfl rfl
  | fPermute =>
    refine .withFull rfl rfl fun c _ => ?_
    split
    · exact .completed _ _ rfl rfl
    · exact .started _ rfl rfl
  | fDigest => exact .withFull rfl rfl fun _ _ => .completed _ _ rfl rfl
  | fGetplane p =>
    refine .withFull rfl rfl fun c _ => ?_
    split
    · exact .completed _ _ rfl rfl
    · next hp => exact .raised _ rfl fun pass => hp (planeIndexOk_iff.1 pass.wellFormed)
  | nInit => exact .completed _ _ rfl rfl
  | nLoad buf =>
    exact .check rfl (fun pass : ChecksPass (.nLoad buf) b => bufferFits_iff.1 pass.wellFormed) <|
      .completed _ _ rfl rfl
  | nAbsorb buf =>
    exact .withNc rfl rfl fun _ =>
      .check rfl (fun pass : ChecksPass (.nAbsorb buf) b => bufferFits_iff.1 pass.wellFormed) <| .completed _ _ rfl rfl
  | nRound idx =>
    exact .withNc rfl rfl fun _ =>
      .check rfl (fun pass : ChecksPass (.nRound idx) b => roundIndexOk_iff.1 pass.wellFormed) <| .started _ rfl rfl
  | nPermute => exact .withNc rfl rfl fun _ => .started _ rfl rfl
  | nDigest => exact .withNc rfl rfl fun _ => .completed _ _ rfl rfl

/-! ### In the system -/

/-- `FAULT` and `CAUSE` are as they were, and the response, if there is one, is that of success. -/
structure LeavesFault (s t : State) : Prop where
  fault : t.fault = s.fault
  cause : t.cause = s.cause
  rsps : t.rsps = s.rsps ∨ ∃ d, t.rsps = s.rsps ++ [okResponse d]

theorem exec_raises_or_leavesFault (i : Instr) (s : State) :
    (∃ k, mayRaise i k = true ∧ ¬ChecksPass i s.toBlock ∧ exec i s = .next (faultEntry k s)) ∨
    ∃ t, exec i s = .next t ∧ LeavesFault s t := by
  have effect := blockExec_faultEffect i s.toBlock
  rw [exec_eq]
  generalize hr : blockExec i s.toBlock = r at effect
  cases effect with
  | raised k listed failed => exact .inl ⟨k, listed, failed, onBlock_raises hr⟩
  | completed d b' hf hc => exact .inr ⟨_, onBlock_completes hr, hf, hc, .inr ⟨d, rfl⟩⟩
  | started b' hf hc => exact .inr ⟨_, onBlock_quiet hr, hf, hc, .inl rfl⟩

theorem not_leavesFault_faultEntry (k : Cause) (s : State) : ¬LeavesFault s (faultEntry k s) := by
  rintro ⟨-, -, rsps⟩
  simp [faultResponse, okResponse] at rsps

theorem ne_none_of_mayRaise {i : Instr} {k : Cause} (h : mayRaise i k = true) : k ≠ .none := by
  rintro rfl
  cases h

/-- Settles O33: a word without a row raises `ILLEGAL_CMD`, and a decoded command raises a cause or leaves `FAULT`. -/
theorem faultEntryWritesNothingElse : Obligations.FaultEntryWritesNothingElse := by
  intro c s t h
  cases hd : decode c with
  | error e =>
    rw [acceptCommand_error s hd] at h
    cases h
    exact .inl ⟨.illegalCmd, by decide, rfl⟩
  | ok i =>
    rw [acceptCommand_ok s hd] at h
    rcases exec_raises_or_leavesFault i s with ⟨k, listed, -, raises⟩ | ⟨t', answers, fault, cause, rsps⟩
    · cases h.symm.trans raises
      exact .inl ⟨k, ne_none_of_mayRaise listed, rfl⟩
    · cases h.symm.trans answers
      exact .inr ⟨fault, cause, rsps⟩

/-- Settles O34: a command that leaves `FAULT` gives no fault response, and one that raises raises a listed cause. -/
theorem onlyListedCausesArise : Obligations.OnlyListedCausesArise := by
  intro i s k h
  rcases exec_raises_or_leavesFault i s with ⟨k', listed, -, raises⟩ | ⟨t, answers, leaves⟩
  · have same : faultEntry k s = faultEntry k' s := Host.Outcome.next.inj (h.symm.trans raises)
    have cause : k = k' := congrArg (·.cause) same
    exact cause ▸ listed
  · cases h.symm.trans answers
    exact absurd leaves (not_leavesFault_faultEntry k s)

/-- Settles O36: a command raises a cause only where one of its checks fails. -/
theorem wellFormedCommandsDoNotFault : Obligations.WellFormedCommandsDoNotFault := by
  intro i s hw ha hfits
  rcases exec_raises_or_leavesFault i s with ⟨k, -, failed, -⟩ | ⟨t, answers, fault, cause, -⟩
  · exact absurd ⟨hw, ha, hfits⟩ failed
  · exact ⟨t, answers, fault, cause⟩

end Sys2Proof.Machine
end

section
/-! PROOFS. Runs end (rules R131, R140, R141): every turn takes the host and the engine nearer to their end, and
commands and responses balance along a run but for the commands that a reset abandons. -/

namespace Sys2Proof.Machine

open Sys2Proof

/-! ### The turns that accept or abandon a command -/

theorem acceptsNow_iff {s : State} :
    acceptsNow s = true ↔ (∃ c ms, s.moves = .offer c :: ms) ∧ s.busy = false ∧ s.fault = false := by
  match hm : s.moves with
  | [] | .idle :: _ | .reset :: _ => simp [acceptsNow, hm]
  | .offer c :: ms => simp [acceptsNow_offer hm, hostStepEnabled]

theorem abandonsNow_iff {s : State} : abandonsNow s = true ↔ (∃ ms, s.moves = .reset :: ms) ∧ s.busy = true := by
  match hm : s.moves with
  | [] | .idle :: _ | .offer _ :: _ => simp [abandonsNow, hm]
  | .reset :: ms => simp [abandonsNow_reset hm]

/-- A run of one turn or more is its first turn and the rest. -/
theorem steps_succ_inv {k : Nat} {s t : State} (h : steps (k + 1) s = .next t) :
    ∃ u, step s = .next u ∧ steps k u = .next t := by
  cases hs : step s with
  | next u => exact ⟨u, rfl, steps_succ k hs ▸ h⟩
  | fault e => simp [steps, hs] at h
  | refused e => simp [steps, hs] at h

theorem countTurns_abandonsNow_eq_zero {k : Nat} {s t : State} (hReset : .reset ∉ s.moves) (h : steps k s = .next t) :
    countTurns abandonsNow k s = 0 := by
  induction k generalizing s with
  | zero => rfl
  | succ k ih =>
    obtain ⟨u, hs, rest⟩ := steps_succ_inv h
    have keeps : abandonsNow s = false := by simp [← Bool.not_eq_true, abandonsNow_iff, ne_reset_cons hReset]
    rw [countTurns_succ _ k hs, keeps, ih (not_mem_reset_of_step hReset hs) rest]
    rfl

/-! ### Commands and responses balance -/

/-- An idle block is busy after a turn only if the turn accepts a command. -/
theorem step_accepts_nothing_busy {s t : State} (hb : s.busy = false) (hNone : acceptsNow s = false)
    (h : step s = .next t) : t.busy = false := by
  match hm : s.moves with
  | [] => rw [step_nil hm, undisturbed_idle hb] at h; cases h; exact hb
  | .idle :: ms => rw [step_idle hm, undisturbed_idle (s := setMoves ms s) hb] at h; cases h; exact hb
  | .reset :: ms => rw [step_reset hm] at h; cases h; rfl
  | .offer c :: ms =>
    have hf : s.fault = true := by simpa [acceptsNow_offer hm, hostStepEnabled, hb] using hNone
    rw [step_offer hm, if_neg (by simp [hb]), if_pos hf] at h
    cases h
    exact hb

/-- A command comes into a turn as the running one or is accepted in it, and it goes out of the turn answered, abandoned
or still running. -/
theorem step_balance {s t : State} (h : step s = .next t) :
    t.rsps.length + t.busy.toNat + (abandonsNow s).toNat = s.rsps.length + s.busy.toNat + (acceptsNow s).toNat := by
  cases hb : s.busy with
  | true =>
    have accepts : acceptsNow s = false := by simp [← Bool.not_eq_true, acceptsNow_iff, hb]
    cases abandons : abandonsNow s with
    | true =>
      obtain ⟨⟨ms, hm⟩, -⟩ := abandonsNow_iff.1 abandons
      rw [step_reset hm] at h
      cases h
      simp [accepts, Block.reset]
    | false =>
      have hReset : ∀ ms, s.moves ≠ .reset :: ms := by simpa [← Bool.not_eq_true, abandonsNow_iff, hb] using abandons
      rcases step_busy_responds hb hReset h with ⟨ends, rsps⟩ | ⟨runs, rsps⟩
      · simp [ends, rsps, accepts]
      · simp [runs, rsps, accepts]
  | false =>
    have abandons : abandonsNow s = false := by simp [← Bool.not_eq_true, abandonsNow_iff, hb]
    cases accepts : acceptsNow s with
    | true =>
      obtain ⟨⟨c, ms, hm⟩, -, hf⟩ := acceptsNow_iff.1 accepts
      obtain ⟨oneResponse, -⟩ := everyCommandGetsOneResponse
      rcases oneResponse s t c ms hm hb hf h with ⟨idle, r, rsps⟩ | ⟨runs, rsps⟩
      · simp [idle, rsps, abandons]
      · simp [runs, rsps, abandons]
    | false =>
      have noOffer : s.fault = true ∨ ∀ c ms, s.moves ≠ .offer c :: ms := by
        by_contra! ⟨hf, c, ms, hm⟩
        simp [acceptsNow_offer hm, hostStepEnabled, hb, hf] at accepts
      rw [step_accepts_nothing_rsps hb noOffer h, step_accepts_nothing_busy hb accepts h, abandons]

/-- R141 for every run, ended or not: the command still running in `t` is the only one of the run that is neither
answered nor abandoned. -/
theorem steps_balance {k : Nat} {s t : State} (h : steps k s = .next t) :
    t.rsps.length + t.busy.toNat + countTurns abandonsNow k s = s.rsps.length + commandsOf k s := by
  induction k generalizing s with
  | zero => cases h; rfl
  | succ k ih =>
    obtain ⟨u, hs, run⟩ := steps_succ_inv h
    have first := step_balance hs
    have rest := ih run
    simp only [commandsOf, countTurns_succ _ k hs] at rest ⊢
    omega

/-! ### The moves are used up and the rounds stop -/

/-- A bound on the turns until the host has no move left and no rounds run: a move that is used up may leave as many
rounds to run as the 4-bit round registers can ask for. -/
def turnsLeft (s : State) : Nat := 16 * s.moves.length + if s.busy then s.re.toNat - s.ri.toNat else 0

/-- A turn uses up a move, unless rounds run and the host waits. -/
theorem length_movesAfter_lt {s : State} (goesOn : ¬(s.moves = [] ∧ s.busy = false))
    (hw : ¬(s.busy = true ∧ HostWaits s)) : (movesAfter s.busy s.moves).length < s.moves.length := by
  match hm : s.moves with
  | [] => exact absurd ⟨by simpa [hm] using goesOn, .inl hm⟩ hw
  | .idle :: _ | .reset :: _ => simp [movesAfter]
  | .offer c :: ms =>
    have hb : s.busy = false := by simpa [HostWaits, hm] using hw
    simp [movesAfter, hb]

theorem step_turnsLeft_lt {s t : State} (inv : ControllerInv s) (goesOn : ¬(s.moves = [] ∧ s.busy = false))
    (h : step s = .next t) : turnsLeft t < turnsLeft s := by
  by_cases hw : s.busy = true ∧ HostWaits s
  · obtain ⟨hb, hw⟩ := hw
    obtain ⟨hlt, -⟩ := (controllerInv_iff.1 inv).inRange hb
    have moves : t.moves = s.moves := (engineStep_frame (step_waiting hb hw ▸ h)).moves
    obtain ⟨u, hu, -, -, ends⟩ := step_running inv hb hw
    obtain rfl : t = u := by simpa [h] using hu
    rw [turnsLeft, turnsLeft, moves, hb]
    rcases ends with ⟨-, hbusy, -⟩ | ⟨hri, hre, hbusy, -⟩
    · simp [hbusy, hlt]
    · simp only [hbusy, hri, hre, if_true]
      omega
  · have fewer := length_movesAfter_lt goesOn hw
    have hre : t.re.toNat < 16 := t.re.isLt
    rw [← step_moves h] at fewer
    unfold turnsLeft
    split <;> omega

theorem exists_steps_to_end {s : State} (inv : ControllerInv s) :
    ∃ k t, steps k s = .next t ∧ t.moves = [] ∧ t.busy = false := by
  induction hn : turnsLeft s using Nat.strong_induction_on generalizing s with
  | _ n ih =>
    by_cases done : s.moves = [] ∧ s.busy = false
    · exact ⟨0, s, rfl, done⟩
    · obtain ⟨u, hu, hinv⟩ := step_keeps_controllerInv inv
      obtain ⟨k, t, run, ended⟩ := ih _ (hn ▸ step_turnsLeft_lt inv done hu) hinv rfl
      exact ⟨k + 1, t, (steps_succ k hu).trans run, ended⟩

/-- Settles O45: the turns left fall to none, and the balance of the run says which commands are answered by then. -/
theorem everyRunEnds : Obligations.EveryRunEnds := by
  intro s inv
  obtain ⟨k, t, run, lastMove, idle⟩ := exists_steps_to_end inv
  have balance : t.rsps.length + countTurns abandonsNow k s = s.rsps.length + commandsOf k s := by
    simpa [idle] using steps_balance run
  have ended (noneLost : countTurns abandonsNow k s = 0) : EndedWell k s t ∨ EndedBadly k s t := by
    cases hf : t.fault with
    | true => exact .inr ⟨run, lastMove, hf⟩
    | false => exact .inl ⟨run, lastMove, idle, hf, by simpa [noneLost] using balance⟩
  refine ⟨k, t, run, lastMove, idle, balance, ?_, fun hReset => ended (countTurns_abandonsNow_eq_zero hReset run)⟩
  rcases Nat.eq_zero_or_pos (countTurns abandonsNow k s) with noneLost | lost
  · exact (ended noneLost).imp_right .inl
  · exact .inr (.inr lost)

end Sys2Proof.Machine
end
